-- ==== Sys2Proof/Word.lean ====
section
/-! DEFINITION. The unit of the encoded buffer (00_scope R5, R6): a byte of 8 bits. The decoder's working
values (ACC, TSI, pc, LEN, queue entries) are exact naturals and integers, not words (R77). -/
namespace Sys2Proof

/-- A byte of the buffer, bits 7 down to 0 (00_scope R6). -/
abbrev Byte := BitVec 8

end Sys2Proof
end

