-- ==== Sys2Proof/Config.lean ====
section
/-! DEFINITION. What is fixed for a machine: the literals the source fixes and the parameters it leaves
open (00_scope R5), and the free bytes of a buffer the host has not written. -/
namespace Sys2Proof

/-- Escape opcode of INDEX (00_scope R5, 30_encoding R55). -/
def Config.opIndex : Byte := 1

/-- Escape opcode of SPACE (00_scope R5, 30_encoding R55). -/
def Config.opSpace : Byte := 2

/-- The escape lead byte (00_scope R5, 30_encoding R54). -/
def Config.escape : Byte := 255

/-- The terminator byte (00_scope R5, 30_encoding R62). -/
def Config.sentinel : Byte := 0

/-- The free value of log entry 1: what the buffer holds at an address the host has not written since the reset
numbered by the first argument (10_state R24 "any bytes", 93_implementation_defined U10 "any value"). Nothing
constrains it. -/
opaque Config.freeByte : Nat → Nat → Byte

/-- The OPEN parameters of 00_scope R5: `none` is unbounded, the value R5 gives for this spec. They are held
in State so that R5's finite choices can be spoken of, and no step changes them (log entry 3). -/
structure Params where
  /-- ACC_BITS: width of ACC and of a flux-queue entry. -/
  accBits : Option Nat
  /-- TSI_BITS: two's complement width of TSI and of an index-queue entry. -/
  tsiBits : Option Nat
  /-- LEN_MAX: the greatest buffer length START accepts. -/
  lenMax : Option Nat
  /-- FLUXQ_CAP: capacity of the flux queue. -/
  fluxqCap : Option Nat
  /-- INDEXQ_CAP: capacity of the index queue. -/
  indexqCap : Option Nat
  deriving DecidableEq, Repr

/-- Every OPEN parameter at its default (00_scope R5): unbounded. -/
def Params.unbounded : Params :=
  { accBits := none, tsiBits := none, lenMax := none, fluxqCap := none, indexqCap := none }

end Sys2Proof
end

