-- ==== Sys2Proof/Syntax.lean ====
section
/-! DEFINITION. The byte-codes as syntax: one constructor per row of spec/opcode_table.json, holding the
bytes the row's encoding leaves free, reserved bits included. -/
namespace Sys2Proof

/-- The byte-codes of the flux stream, the two rows of the reserved opcode space, and the sentinel
(30_encoding R50, R54, R55, R67). -/
inductive Instr where
  /-- Format F1, the single byte `b` (R51). -/
  | flux1 (b : Byte)
  /-- Format F2, the lead byte `b` and the extra byte `e` (R52). -/
  | flux2 (b e : Byte)
  /-- Format F6 with opcode 1 and its four operand bytes (R53). -/
  | index (b0 b1 b2 b3 : Byte)
  /-- Format F6 with opcode 2 and its four operand bytes (R53). -/
  | space (b0 b1 b2 b3 : Byte)
  /-- The escape with opcode byte 0 (R55, R61). -/
  | reservedEscape0
  /-- The escape with an opcode byte in 3..255 (R55, R61). -/
  | reservedEscape (op : Byte)
  /-- The sentinel, recognised by position (R62, R73). -/
  | endOfStream
  deriving DecidableEq, Repr

end Sys2Proof
end

