-- ==== Sys2Proof/WellFormed.lean ====
section
/-! DEFINITION. The field constraints of the formats (30_encoding R51, R52, R55). -/
namespace Sys2Proof

/-- The bytes of `i` satisfy the constraints its row puts on them. The extra byte of a FLUX2 and the operand
bytes of an F6 code are unconstrained (30_encoding R58, R60, 90_conflicts C11). -/
abbrev WellFormed (i : Instr) : Prop :=
  match i with
  | .flux1 b => b.toNat ≤ 249
  | .flux2 b _ => 250 ≤ b.toNat ∧ b.toNat ≤ 254
  | .index _ _ _ _ => True
  | .space _ _ _ _ => True
  | .reservedEscape0 => True
  | .reservedEscape op => 3 ≤ op.toNat
  | .endOfStream => True

/-- `WellFormed` as a test that runs. -/
def wellFormed (i : Instr) : Bool :=
  match i with
  | .flux1 b => decide (b.toNat ≤ 249)
  | .flux2 b _ => decide (250 ≤ b.toNat) && decide (b.toNat ≤ 254)
  | .index _ _ _ _ => true
  | .space _ _ _ _ => true
  | .reservedEscape0 => true
  | .reservedEscape op => decide (3 ≤ op.toNat)
  | .endOfStream => true

end Sys2Proof
end

