-- ==== Sys2Proof/Decode.lean ====
section
/-! DEFINITION. The decoder of one byte-code, total on any bytes, and after it the encoder. The decoder is
told how many bytes of the prefix are left, because the sentinel is recognised by position and the length
tests count bytes before the sentinel (30_encoding R54-R56, R61, R62). -/
namespace Sys2Proof

/-- Why no byte-code is read. -/
inductive DecodeError where
  /-- The byte-code needs more bytes than lie before the sentinel: the step raises UnexpectedEndOfStream
  (60_exceptions R113). -/
  | truncated
  /-- The bytes given end although the prefix goes on. -/
  | bytesMissing
  deriving DecidableEq, Repr

/-- The four operand bytes of an F6 code, with the length test before any of them is read
(42_escape_codes R93). -/
def decodeOperands (rem : Nat) (form : Byte → Byte → Byte → Byte → Instr) (operands : List Byte) :
    Except DecodeError Instr :=
  if rem < 6 then .error .truncated
  else
    match operands with
    | b0 :: b1 :: b2 :: b3 :: _ => .ok (form b0 b1 b2 b3)
    | _ => .error .bytesMissing

/-- The opcode map after a lead byte 255 (30_encoding R55). An unknown opcode is found before any operand
byte is asked for (42_escape_codes R90, 60_exceptions R115). -/
def decodeEscape (rem : Nat) (op : Byte) (operands : List Byte) : Except DecodeError Instr :=
  if op = Config.opIndex then decodeOperands rem Instr.index operands
  else if op = Config.opSpace then decodeOperands rem Instr.space operands
  else if op = 0 then .ok .reservedEscape0
  else .ok (.reservedEscape op)

/-- The byte-code that starts with the first of `bytes`, where `rem` bytes of the prefix are left from that
byte on: at `rem = 0` the position is the sentinel's (R62), else the lead-byte map decides (30_encoding R54,
40_start_dispatch_end R72). -/
def decode (rem : Nat) (bytes : List Byte) : Except DecodeError Instr :=
  if rem = 0 then .ok .endOfStream
  else
    match bytes with
    | [] => .error .bytesMissing
    | b :: tail =>
      if b.toNat ≤ 249 then .ok (.flux1 b)
      else if rem < 2 then .error .truncated
      else
        match tail with
        | [] => .error .bytesMissing
        | c :: operands =>
          if b.toNat ≤ 254 then .ok (.flux2 b c) else decodeEscape rem c operands

/-- The bytes of a byte-code in address order (30_encoding R50-R53); for the reserved rows the two bytes the
fault reads (R61), for END the sentinel byte (R64). -/
def encode (i : Instr) : List Byte :=
  match i with
  | .flux1 b => [b]
  | .flux2 b e => [b, e]
  | .index b0 b1 b2 b3 => [Config.escape, Config.opIndex, b0, b1, b2, b3]
  | .space b0 b1 b2 b3 => [Config.escape, Config.opSpace, b0, b1, b2, b3]
  | .reservedEscape0 => [Config.escape, 0]
  | .reservedEscape op => [Config.escape, op]
  | .endOfStream => [Config.sentinel]

/-- How many bytes the row's encoding has (30_encoding R56, R67). -/
def byteLength (i : Instr) : Nat :=
  match i with
  | .flux1 _ => 1
  | .flux2 _ _ => 2
  | .index _ _ _ _ => 6
  | .space _ _ _ _ => 6
  | .reservedEscape0 => 2
  | .reservedEscape _ => 2
  | .endOfStream => 1

/-- Where a row is read: END at the sentinel's position only, every other row where all its bytes lie before
the sentinel (30_encoding R61, R62). -/
abbrev FitsBefore (i : Instr) (rem : Nat) : Prop :=
  match i with
  | .endOfStream => rem = 0
  | .flux1 _ => 1 ≤ rem
  | .flux2 _ _ => 2 ≤ rem
  | .index _ _ _ _ => 6 ≤ rem
  | .space _ _ _ _ => 6 ≤ rem
  | .reservedEscape0 => 2 ≤ rem
  | .reservedEscape _ => 2 ≤ rem

/-- The `k`-th byte of a number whose bit 0 is the least significant bit of the first byte. -/
def byteOfNumber (w k : Nat) : Byte := BitVec.ofNat 8 (w >>> (8 * k))

/-- The six bytes, in address order, of the longest byte-code whose bits are `w` as spec/opcode_table.json
numbers them. A row of the table numbers the bits of its first `match_bytes` bytes with the first byte
leftmost (30_encoding R67), so an escape row, the only kind with two such bytes, has its lead byte 0xFF in
bits 15..8; every other number has its first byte in bits 7..0, a FLUX2 with extra byte 0xFF too (log entry 6). -/
def tableBytes (nbits w : Nat) : List Byte :=
  let v := w % 2 ^ nbits
  let low := byteOfNumber v 0
  let high := byteOfNumber v 1
  let rest := [byteOfNumber v 2, byteOfNumber v 3, byteOfNumber v 4, byteOfNumber v 5]
  if high = Config.escape ∧ low.toNat ≤ 249 then high :: low :: rest else low :: high :: rest

/-- The byte-code the decoder reads from a word of the opcode table, six bytes of the prefix being there. -/
def decodeTableWord (nbits w : Nat) : Option Instr :=
  match decode 6 (tableBytes nbits w) with
  | .ok i => some i
  | .error _ => none

end Sys2Proof
end

