-- ==== Sys2Proof/Machine/State.lean ====
section
/-! DEFINITION. The state of the FSD (10_state R10) with its input buffer and the host's pending moves
beside it, the reasons a step can stop, and the state after reset (10_state R24, 70_reset_and_hazards R130). -/
namespace Sys2Proof.Machine

/-- `STATUS` (10_state R15). -/
inductive Status where
  | idle
  | run
  | done
  | err
  deriving DecidableEq, Repr

/-- `ERRKIND` (10_state R16). -/
inductive ErrKind where
  | none
  | malformedBuffer
  | unknownOpcode
  | unexpectedEndOfStream
  deriving DecidableEq, Repr

/-- A move of the host (70_reset_and_hazards R136); `wait` is the model's own: the host lets the decoder make
the next move (log entry 4). -/
inductive HostAction where
  | writeBuf (a : Nat) (b : Byte)
  | writeLen (n : Nat)
  | start
  | readStatus
  | readQueues
  | reset
  | wait
  deriving DecidableEq, Repr

/-- The bytes the host has written: (address, byte) pairs, addresses strictly rising. What an unlisted address
holds is a free byte (`State.byteAt`, log entry 1). -/
abbrev Memory := List Host.Cell

/-- The state. The first nine fields are the tuple of 10_state R10. -/
structure State where
  /-- `STATUS` (R15). -/
  status : Status
  /-- `ERRKIND` (R16). -/
  errKind : ErrKind
  /-- `ERRVAL` (R17). -/
  errVal : Byte
  /-- `LEN` (R14). -/
  len : Nat
  /-- `pc`, the cursor (R13). -/
  pc : Nat
  /-- `ACC` (R11). -/
  acc : Nat
  /-- `TSI` (R12). -/
  tsi : Int
  /-- `FLUXQ`, oldest entry first (R18). -/
  fluxq : List Nat
  /-- `INDEXQ`, oldest entry first (R19). -/
  indexq : List Int
  /-- `BUF`, the host's input, written by the host alone (R20). -/
  buf : Memory
  /-- How many times the host's reset has left `BUF` unspecified anew; the free bytes of the addresses `buf` does
  not list depend on it: the model's own field (log entry 1). -/
  bufSeed : Nat
  /-- The host's moves not yet made, oldest first: the model's own field (log entry 4). -/
  inbox : List HostAction
  /-- The parameters of 00_scope R5, never written: the model's own field (log entry 3). -/
  params : Params
  deriving DecidableEq, Repr

/-- Why a step stops although the spec names no exception for it. Each is raised where no rule enables a step:
safe, the model says nothing where the spec says nothing. -/
inductive Fault where
  /-- A byte-code's meaning asked for outside `STATUS = RUN`, where none is enabled (40_start_dispatch_end
  R70). Raised by every meaning through `needBytes` and by `execEndOfStream`. Safe. -/
  | notRunning
  /-- No byte-code begins at `pc`: `pc` is not below END where a byte-code is asked for (R72), or lies past END
  where a step is asked for (10_state R13 says no run gets there). Raised by `needBytes` and `decoderStep`. Safe. -/
  | noByteCodeHere
  /-- END asked for where `pc` is not the sentinel's address (40_start_dispatch_end R73). Raised by
  `execEndOfStream`. Safe. -/
  | notAtSentinel
  deriving DecidableEq, Repr

/-- What the model gives no meaning to. -/
inductive Refusal where
  /-- An instruction without a meaning, raised by `exec` alone: no arm is left that raises it. Safe. -/
  | notModelled (mnemonic : String)
  /-- A value, an append or a buffer length that a finite parameter cannot hold (00_scope R5, 60_exceptions
  R123). Raised by the four byte-codes and by `start`, never at the default parameters. Safe. -/
  | capacityExceeded
  /-- The host writes `BUF` while `STATUS = RUN` (70_reset_and_hazards R133, U7). Raised by `serveHost`. Safe. -/
  | bufferWrittenWhileRunning
  /-- The host writes `LEN` while `STATUS = RUN` (70_reset_and_hazards R133, U7). Raised by `serveHost`. Safe. -/
  | lenWrittenWhileRunning
  /-- The host requests START while `STATUS = RUN` (70_reset_and_hazards R136, U8). Raised by `serveHost`. Safe. -/
  | startWhileRunning
  /-- The host reads the staged queues while `STATUS = RUN` (70_reset_and_hazards R134). Raised by `serveHost`. Safe. -/
  | queuesReadWhileRunning
  deriving DecidableEq, Repr

/-- The state after reset (10_state R24, 70_reset_and_hazards R130): `BUF` unspecified, so nothing is listed and
every byte is free, and no move of the host pending. -/
def State.reset : State :=
  { status := .idle, errKind := .none, errVal := 0, len := 0, pc := 0, acc := 0, tsi := 0, fluxq := [],
    indexq := [], buf := [], bufSeed := 0, inbox := [], params := Params.unbounded }

end Sys2Proof.Machine
end

