-- ==== Sys2Proof/Machine/Flags.lean ====
section
/-! DEFINITION. The FSD has no flags (10_state R21). What stands here instead is what the host sees of the
state (10_state R15-R17, R23) and the tests of the open widths and capacities (00_scope R5). -/
namespace Sys2Proof.Machine

/-- The code of `STATUS` (10_state R15). -/
def statusCode (x : Status) : Nat :=
  match x with
  | .idle => 0
  | .run => 1
  | .done => 2
  | .err => 3

/-- The code of `ERRKIND` (10_state R16). -/
def errKindCode (k : ErrKind) : Nat :=
  match k with
  | .none => 0
  | .malformedBuffer => 1
  | .unknownOpcode => 2
  | .unexpectedEndOfStream => 3

/-- What the host can observe (10_state R23). -/
structure HostView where
  status : Status
  errKind : ErrKind
  errVal : Byte
  /-- Both queues, or nothing while they are staged. -/
  queues : Option (List Nat × List Int)
  deriving DecidableEq, Repr

/-- The host's view: the status registers always, the queues except in `RUN` (10_state R23,
70_reset_and_hazards R134, R136). -/
def State.hostView (s : State) : HostView :=
  { status := s.status, errKind := s.errKind, errVal := s.errVal,
    queues := if s.status = .run then none else some (s.fluxq, s.indexq) }

/-- `v` fits an unsigned width (00_scope R5). -/
def natFits (bits : Option Nat) (v : Nat) : Bool :=
  match bits with
  | none => true
  | some b => decide (v < 2 ^ b)

/-- `v` fits a two's complement width: `-2^(b-1) <= v < 2^(b-1)`, doubled so that no exponent is negative
(00_scope R5). -/
def intFits (bits : Option Nat) (v : Int) : Bool :=
  match bits with
  | none => true
  | some b => decide (-(2 ^ b : Int) ≤ 2 * v) && decide (2 * v < (2 ^ b : Int))

/-- One more entry fits a queue that holds `n` (00_scope R5). -/
def hasRoom (cap : Option Nat) (n : Nat) : Bool :=
  match cap with
  | none => true
  | some c => decide (n < c)

/-- `n` bytes are no more than `LEN_MAX` (00_scope R5). -/
def lenFits (max : Option Nat) (n : Nat) : Bool :=
  match max with
  | none => true
  | some m => decide (n ≤ m)

end Sys2Proof.Machine
end

