-- ==== Sys2Proof/Machine/Ops.lean ====
section
/-! DEFINITION. The named operations over the buffer and the registers: reading and writing bytes, the length
test every byte-code shares, the emissions, the cursor's advance, taking a fault and starting a decode. -/
namespace Sys2Proof.Machine

/-- The outcome of a step. -/
abbrev Result := Host.Outcome State Fault Refusal

/-- The canonical form of a memory: addresses strictly rising. An unlisted address holds a free byte, of which Lean
can tell no value, so no entry can be known to equal it and none is left out for it. -/
abbrev Memory.wf (m : Memory) : Prop := m.Pairwise (fun x y => x.1 < y.1)

/-- The byte the host has written at `a`, if it has written one. -/
def readByte (m : Memory) (a : Nat) : Option Byte :=
  match m with
  | [] => none
  | c :: rest => if c.1 = a then some c.2 else readByte rest a

/-- The host's write of one byte (70_reset_and_hazards R136), in canonical form. -/
def writeByte (m : Memory) (a : Nat) (b : Byte) : Memory :=
  match m with
  | [] => [(a, b)]
  | c :: rest =>
    if a < c.1 then (a, b) :: c :: rest
    else if a = c.1 then (a, b) :: rest
    else c :: writeByte rest a b

/-- The host's write of consecutive bytes from `a` on (20_memory R31). -/
def writeBytes (m : Memory) (a : Nat) (bs : List Byte) : Memory :=
  match bs with
  | [] => m
  | b :: rest => writeBytes (writeByte m a b) (a + 1) rest

/-- The byte at `a` of a memory: the byte the host wrote, else the free byte of that address (10_state R24, log
entry 1). -/
def byteOf (m : Memory) (seed a : Nat) : Byte :=
  match readByte m a with
  | some b => b
  | none => Config.freeByte seed a

/-- The bytes at `a`, `a + 1`, ..., `a + n - 1` of a memory. -/
def bytesOf (m : Memory) (seed a n : Nat) : List Byte :=
  match n with
  | 0 => []
  | k + 1 => byteOf m seed a :: bytesOf m seed (a + 1) k

/-- `BUF[a]`, the one read of the buffer (00_scope R8, 10_state R20, 20_memory R35). -/
def State.byteAt (s : State) (a : Nat) : Byte := byteOf s.buf s.bufSeed a

/-- `MemRead(a, n)` (00_scope R8). -/
def State.bytesFrom (s : State) (a n : Nat) : List Byte := bytesOf s.buf s.bufSeed a n

/-- `END - pc`, the bytes of the prefix from `pc` on (60_exceptions R113). -/
def State.remaining (s : State) : Nat := s.len - 1 - s.pc

/-- `pc <- pc + n`, the only way the cursor moves (10_state R13, 40_start_dispatch_end R74). -/
def State.advance (s : State) (n : Nat) : State := { s with pc := s.pc + n }

/-- TAKING A FAULT, `raise K(info)` (60_exceptions R116): pc, ACC and TSI stay as they were. -/
def State.raise (s : State) (k : ErrKind) (info : Byte) : State :=
  { s with
    status := .err
    errKind := k
    errVal := if k = .unknownOpcode then info else 0
    fluxq := []
    indexq := [] }

/-- The test every byte-code of `n` bytes makes before it reads its bytes or writes any state: a step is enabled
only in `RUN` with `pc < END` (40_start_dispatch_end R70, R72), and fewer than `n` bytes before the sentinel
raise UnexpectedEndOfStream (41_flux_codes R84, 42_escape_codes R90, R93, 60_exceptions R113). -/
def needBytes (n : Nat) (s : State) (effect : Result) : Result :=
  if s.status ≠ .run then .fault .notRunning
  else if s.len ≤ s.pc + 1 then .fault .noByteCodeHere
  else if s.remaining < n then .next (s.raise .unexpectedEndOfStream 0)
  else effect

/-- The state `t` if every value and append fits the parameters, else the refusal (60_exceptions R123). -/
def commit (fits : Bool) (t : State) : Result :=
  if fits then .next t else .refused .capacityExceeded

/-- What `EmitFlux(n)` has to fit: the interval, the new TSI, and one more flux entry (41_flux_codes R80). -/
def emitFluxFits (n : Nat) (s : State) : Bool :=
  natFits s.params.accBits (s.acc + n) && intFits s.params.tsiBits (s.tsi + (s.acc + n : Nat))
    && hasRoom s.params.fluxqCap s.fluxq.length

/-- `EmitFlux(n)` (41_flux_codes R80, R81): the interval is the accumulated ticks plus `n`, and all of it is
added to TSI. -/
def emitFlux (n : Nat) (s : State) : State :=
  { s with
    fluxq := s.fluxq ++ [s.acc + n]
    tsi := s.tsi + (s.acc + n : Nat)
    acc := 0 }

/-- What an INDEX with operand `val` has to fit: the entry, the new TSI, and one more index entry
(42_escape_codes R95). -/
def emitIndexFits (val : Nat) (s : State) : Bool :=
  intFits s.params.tsiBits (s.tsi + s.acc + val) && intFits s.params.tsiBits (-((s.acc : Int) + val))
    && hasRoom s.params.indexqCap s.indexq.length

/-- The emission of an INDEX with operand `val`, both values computed from the registers before the step
(42_escape_codes R95). -/
def emitIndex (val : Nat) (s : State) : State :=
  { s with
    indexq := s.indexq ++ [s.tsi + s.acc + val]
    tsi := -((s.acc : Int) + val) }

/-- What a SPACE with operand `val` has to fit (42_escape_codes R97). -/
def addSpaceFits (val : Nat) (s : State) : Bool := natFits s.params.accBits (s.acc + val)

/-- The elapsed ticks of a SPACE with operand `val` (42_escape_codes R97). -/
def addSpace (val : Nat) (s : State) : State := { s with acc := s.acc + val }

/-- The re-initialisation START does before anything else (40_start_dispatch_end R71, 70_reset_and_hazards
R131). -/
def State.reinit (s : State) : State :=
  { s with fluxq := [], indexq := [], pc := 0, acc := 0, tsi := 0, errKind := .none, errVal := 0 }

/-- START, asked for outside `RUN` (40_start_dispatch_end R71). A buffer longer than a finite LEN_MAX is refused
first (00_scope R5, log entry 5). -/
def start (s : State) : Result :=
  if lenFits s.params.lenMax s.len = false then .refused .capacityExceeded
  else if s.len = 0 then .next (s.reinit.raise .malformedBuffer 0)
  else if s.byteAt (s.len - 1) ≠ Config.sentinel then .next (s.reinit.raise .malformedBuffer 0)
  else .next { s.reinit with status := .run }

/-- END's effect: both queues become visible together (40_start_dispatch_end R73). -/
def State.finish (s : State) : State := { s with status := .done }

/-- Reset, in any state (70_reset_and_hazards R130): the buffer's content is unspecified again, so nothing stays
listed and every byte is free anew. The host's further moves and the machine's parameters are no state of the decoder
and stay (log entries 1, 3, 4). -/
def State.hostReset (s : State) : State :=
  { State.reset with bufSeed := s.bufSeed + 1, inbox := s.inbox, params := s.params }

end Sys2Proof.Machine
end

