-- ==== Sys2Proof/Machine/EndStep.lean ====
section
/-! DEFINITION. The END step at the sentinel (40_start_dispatch_end R73). -/
namespace Sys2Proof.Machine

/-- END: enabled in `RUN` at `pc = LEN - 1`; the sentinel is not read again (40_start_dispatch_end R73). -/
def execEndOfStream (s : State) : Result :=
  if s.status ≠ .run then .fault .notRunning
  else if s.pc + 1 ≠ s.len then .fault .notAtSentinel
  else .next s.finish

end Sys2Proof.Machine
end

