-- ==== Sys2Proof/Machine/Operands.lean ====
section
/-! DEFINITION. The operand forms (30_encoding R57-R59, R63): the immediates of the two flux codes, the 28-bit
packed operand and its derived inverse. -/
namespace Sys2Proof.Machine

/-- FLUX1's immediate: the lead byte, unsigned (30_encoding R57). -/
def flux1Imm (b : Byte) : Nat := b.toNat

/-- FLUX2's immediate, evaluated left to right as written (30_encoding R58, 40_start_dispatch_end R77). -/
def flux2Imm (b e : Byte) : Nat := 250 + (b.toNat - 250) * 255 + e.toNat - 1

/-- The 28-bit packed operand, on unbounded naturals (42_escape_codes R91). -/
def u28 (b0 b1 b2 b3 : Byte) : Nat :=
  (b0.toNat >>> 1) ||| ((b1.toNat &&& 0xFE) <<< 6) ||| ((b2.toNat &&& 0xFE) <<< 13) ||| ((b3.toNat &&& 0xFE) <<< 20)

/-- One operand byte: the seven value bits over the reserved bit (30_encoding R53). -/
def packByte (v : Nat) (r : Bool) : Byte := BitVec.ofNat 8 (v % 128 * 2 + r.toNat)

/-- `P28r` of 30_encoding R63: the operand bytes of `v`, with the given reserved bits. A derived aid. -/
def p28r (v : Nat) (r0 r1 r2 r3 : Bool) : List Byte :=
  [packByte v r0, packByte (v >>> 7) r1, packByte (v >>> 14) r2, packByte (v >>> 21) r3]

/-- `P28` of 30_encoding R63: all reserved bits 0. A derived aid. -/
def p28 (v : Nat) : List Byte := p28r v false false false false

end Sys2Proof.Machine
end

