-- ==== Sys2Proof/Machine/Escape.lean ====
section
/-! DEFINITION. The escape byte-codes INDEX and SPACE and the reserved opcodes (42_escape_codes). -/
namespace Sys2Proof.Machine

/-- INDEX (42_escape_codes R93, R95, R96). -/
def execIndex (b0 b1 b2 b3 : Byte) (s : State) : Result :=
  needBytes 6 s (commit (emitIndexFits (u28 b0 b1 b2 b3) s) ((emitIndex (u28 b0 b1 b2 b3) s).advance 6))

/-- SPACE (42_escape_codes R93, R97, R98). -/
def execSpace (b0 b1 b2 b3 : Byte) (s : State) : Result :=
  needBytes 6 s (commit (addSpaceFits (u28 b0 b1 b2 b3) s) ((addSpace (u28 b0 b1 b2 b3) s).advance 6))

/-- The escape with opcode byte 0: UnknownOpcode(0), however few bytes follow (42_escape_codes R90, R99). -/
def execReservedEscape0 (s : State) : Result :=
  needBytes 2 s (.next (s.raise .unknownOpcode 0))

/-- The escape with an opcode byte in 3..255: UnknownOpcode(op), however few bytes follow (42_escape_codes R90,
R99). -/
def execReservedEscape (op : Byte) (s : State) : Result :=
  needBytes 2 s (.next (s.raise .unknownOpcode op))

end Sys2Proof.Machine
end

