-- ==== Sys2Proof/Machine/Flux.lean ====
section
/-! DEFINITION. The flux byte-codes (41_flux_codes). -/
namespace Sys2Proof.Machine

/-- FLUX1 (41_flux_codes R82, R83). -/
def execFlux1 (b : Byte) (s : State) : Result :=
  needBytes 1 s (commit (emitFluxFits (flux1Imm b) s) ((emitFlux (flux1Imm b) s).advance 1))

/-- FLUX2 (41_flux_codes R84, R85). -/
def execFlux2 (b e : Byte) (s : State) : Result :=
  needBytes 2 s (commit (emitFluxFits (flux2Imm b e) s) ((emitFlux (flux2Imm b e) s).advance 2))

end Sys2Proof.Machine
end

