-- ==== Sys2Proof/Machine/Dispatch.lean ====
section
/-! DEFINITION. One arm per constructor of Instr (40_start_dispatch_end R72, 42_escape_codes R90). -/
namespace Sys2Proof.Machine

def exec (i : Instr) (s : State) : Host.Outcome State Fault Refusal :=
  match i with
  | .flux1 b => Sys2Proof.Machine.execFlux1 b s
  | .flux2 b e => Sys2Proof.Machine.execFlux2 b e s
  | .index b0 b1 b2 b3 => Sys2Proof.Machine.execIndex b0 b1 b2 b3 s
  | .space b0 b1 b2 b3 => Sys2Proof.Machine.execSpace b0 b1 b2 b3 s
  | .reservedEscape0 => Sys2Proof.Machine.execReservedEscape0 s
  | .reservedEscape op => Sys2Proof.Machine.execReservedEscape op s
  | .endOfStream => Sys2Proof.Machine.execEndOfStream s

end Sys2Proof.Machine
end

