-- ==== Sys2Proof/Machine/Sequence.lean ====
section
/-! DEFINITION. The sequencing of a decode (40_start_dispatch_end R70, R72): fetching the byte-code at `pc`, the
decoder's step, the host's moves, and placing a table word where the next step fetches. -/
namespace Sys2Proof.Machine

/-- Why no byte-code is fetched. -/
inductive FetchError where
  /-- `pc` lies past the sentinel's address, or `LEN = 0`. -/
  | noByteCode
  /-- The byte-code at `pc` needs more bytes than lie before the sentinel (60_exceptions R113). -/
  | truncated
  deriving DecidableEq, Repr

/-- The bytes the fetch looks at: at most the six of the longest byte-code, none at or past the sentinel's
address (20_memory R37). -/
def State.window (s : State) : List Byte := s.bytesFrom s.pc (min 6 s.remaining)

/-- The byte-code at `pc` (40_start_dispatch_end R72), END when `pc` is the sentinel's address (R73). The window always
holds the bytes the decoder asks for, so `bytesMissing` does not arise (`fetch_cases`). -/
def fetch (s : State) : Except FetchError Instr :=
  if s.len ≤ s.pc then .error .noByteCode
  else
    match decode s.remaining s.window with
    | .ok i => .ok i
    | .error .truncated => .error .truncated
    | .error .bytesMissing => .error .noByteCode

/-- The decoder's move (40_start_dispatch_end R70): one byte-code or END in `RUN`; in the other states no
decoder step is enabled and the machine waits for the host. -/
def decoderStep (s : State) : Result :=
  match s.status with
  | .run =>
    match fetch s with
    | .ok i => exec i s
    | .error .truncated => .next (s.raise .unexpectedEndOfStream 0)
    | .error .noByteCode => .fault .noByteCodeHere
  | .idle => .next s
  | .done => .next s
  | .err => .next s

/-- A move of the host (70_reset_and_hazards R136). What R133, R134, U7 and U8 forbid in `RUN` is refused. -/
def serveHost (a : HostAction) (s : State) : Result :=
  match a with
  | .writeBuf addr b =>
    if s.status = .run then .refused .bufferWrittenWhileRunning
    else .next { s with buf := writeByte s.buf addr b }
  | .writeLen n =>
    if s.status = .run then .refused .lenWrittenWhileRunning else .next { s with len := n }
  | .start => if s.status = .run then .refused .startWhileRunning else start s
  | .readStatus => .next s
  | .readQueues => if s.status = .run then .refused .queuesReadWhileRunning else .next s
  | .reset => .next s.hostReset
  | .wait => decoderStep s

/-- One move: the host's oldest pending one, or the decoder's when the host has none pending. -/
def oneMove (s : State) : Result :=
  match s.inbox with
  | [] => decoderStep s
  | a :: rest => serveHost a { s with inbox := rest }

/-- The host's moves that have `bs` decoded, in the order of 70_reset_and_hazards R132: the bytes, LEN, START. -/
def writeMoves (a : Nat) (bs : List Byte) : List HostAction :=
  match bs with
  | [] => []
  | b :: rest => .writeBuf a b :: writeMoves (a + 1) rest

/-- See `writeMoves`. -/
def loadMoves (bs : List Byte) : List HostAction := writeMoves 0 bs ++ [.writeLen bs.length, .start]

/-- The state in which the next step fetches the table word: its bytes at `pc` with the sentinel after them, LEN
to match, a decode in progress, no move of the host pending. -/
def placeWord (s : State) (nbits w : Nat) : State :=
  { s with
    buf := writeBytes s.buf s.pc (tableBytes nbits w ++ [Config.sentinel])
    len := s.pc + 7
    status := .run
    inbox := [] }

end Sys2Proof.Machine
end

