-- ==== Sys2Proof/Machine/Step.lean ====
section
/-! DEFINITION. The step function: one move of the decoder or of the host (40_start_dispatch_end R70). -/
namespace Sys2Proof.Machine

/-- One step of the machine. -/
def step (s : State) : Host.Outcome State Fault Refusal := oneMove s

/-- `s` with the table word placed where the next step fetches (log entry 7). -/
def State.withFetchWord (s : State) (nbits w : Nat) : State := placeWord s nbits w

end Sys2Proof.Machine
end

