-- ==== Sys2Proof/Machine/Assembler.lean ====
section
/-! DEFINITION. The assembler notation of 30_encoding R64-R66, a derived aid for writing buffers: no part of the
hardware and nothing a step uses. -/
namespace Sys2Proof.Machine

/-- A statement of the notation (30_encoding R64); `bytes` is `.byte`. -/
inductive Stmt where
  | flux1 (n : Nat)
  | flux2 (n : Nat)
  | index (v : Nat)
  | space (v : Nat)
  | endMark
  | bytes (bs : List Byte)
  deriving DecidableEq, Repr

/-- The byte-code of a FLUX2 with immediate `n` (30_encoding R64): `e` is in 1..255. -/
def flux2Bytes (n : Nat) : List Byte :=
  [BitVec.ofNat 8 (250 + (n - 250) / 255), BitVec.ofNat 8 (1 + (n - 250) % 255)]

/-- The bytes of a statement; none where the operand is outside the range R64 gives. -/
def assembleStmt (x : Stmt) : Option (List Byte) :=
  match x with
  | .flux1 n => if n ≤ 249 then some [BitVec.ofNat 8 n] else none
  | .flux2 n => if 250 ≤ n ∧ n ≤ 1524 then some (flux2Bytes n) else none
  | .index v => if v ≤ 268435455 then some (Config.escape :: Config.opIndex :: p28 v) else none
  | .space v => if v ≤ 268435455 then some (Config.escape :: Config.opSpace :: p28 v) else none
  | .endMark => some [Config.sentinel]
  | .bytes bs => some bs

/-- The buffer of a program: the bytes of its statements, one after another (30_encoding R66). -/
def assemble (p : List Stmt) : Option (List Byte) :=
  match p with
  | [] => some []
  | x :: rest =>
    match assembleStmt x, assemble rest with
    | some bs, some more => some (bs ++ more)
    | _, _ => none

/-- The greatest operand of an F6 code, `2^28 - 1` (30_encoding R59). -/
def maxOperand : Nat := 268435455

/-- How many `SPACE 268435455` the pseudo-instruction `FLUX n` opens with for `n` from 1525 on: the rest is then
in 250..268435704 (30_encoding R65). -/
def fullSpaces (n : Nat) : Nat := (n - 250) / maxOperand

/-- The pseudo-instruction `FLUX n` (30_encoding R65). -/
def fluxStmts (n : Nat) : List Stmt :=
  if n ≤ 249 then [.flux1 n]
  else if n ≤ 1524 then [.flux2 n]
  else
    List.replicate (fullSpaces n) (.space maxOperand)
      ++ [.space (n - fullSpaces n * maxOperand - 249), .flux1 249]

end Sys2Proof.Machine
end

