-- ==== Sys2Proof/Machine/Reference.lean ====
section
/-! DEFINITION. The whole decode as one function (70_reset_and_hazards R140), written out from R140 alone and
sharing no operation with the meanings, so that R141's agreement compares two readings of the spec. It is at the
default parameters: every value exact. -/
namespace Sys2Proof.Machine

/-- What `decode_flux` returns (00_scope R2, 70_reset_and_hazards R140). -/
inductive DecodeResult where
  | ok (flux : List Nat) (index : List Int)
  | err (kind : ErrKind) (val : Byte)
  deriving DecidableEq, Repr

/-- R140's loop, on the bytes of the prefix not yet decoded. -/
def decodeLoop (bytes : List Byte) (acc : Nat) (tsi : Int) (flux : List Nat) (index : List Int) : DecodeResult :=
  match bytes with
  | [] => .ok flux index
  | b :: tl =>
    if b.toNat ≤ 249 then
      let f := acc + b.toNat
      decodeLoop tl 0 (tsi + f) (flux ++ [f]) index
    else
      match tl with
      | [] => .err .unexpectedEndOfStream 0
      | c :: tl2 =>
        if b.toNat ≤ 254 then
          let f := acc + 250 + (b.toNat - 250) * 255 + c.toNat - 1
          decodeLoop tl2 0 (tsi + f) (flux ++ [f]) index
        else if c ≠ 1 ∧ c ≠ 2 then .err .unknownOpcode c
        else
          match tl2 with
          | b0 :: b1 :: b2 :: b3 :: tl6 =>
            let val := (b0.toNat >>> 1) ||| ((b1.toNat &&& 0xFE) <<< 6) ||| ((b2.toNat &&& 0xFE) <<< 13)
              ||| ((b3.toNat &&& 0xFE) <<< 20)
            if c = 1 then decodeLoop tl6 acc (-((acc : Int) + val)) flux (index ++ [tsi + acc + val])
            else decodeLoop tl6 (acc + val) tsi flux index
          | _ => .err .unexpectedEndOfStream 0

/-- `decode_flux(BUF, LEN)` on the list of the LEN bytes (70_reset_and_hazards R140). -/
def decodeFlux (buffer : List Byte) : DecodeResult :=
  match buffer.getLast? with
  | none => .err .malformedBuffer 0
  | some b => if b ≠ 0 then .err .malformedBuffer 0 else decodeLoop buffer.dropLast 0 0 [] []

/-- The result a state holds for the host (10_state R15, R23): none before the decode has ended. -/
def State.result (s : State) : Option DecodeResult :=
  match s.status with
  | .idle => none
  | .run => none
  | .done => some (.ok s.fluxq s.indexq)
  | .err => some (.err s.errKind s.errVal)

end Sys2Proof.Machine
end

