-- ==== Sys2Proof/Safety.lean ====
section
/-! DEFINITION. What counts as a sound state of the FSD, in the terms the claims use: where a step is enabled,
and the invariants the spec states of its registers. -/
namespace Sys2Proof.Machine

/-- A byte-code is dispatched here (40_start_dispatch_end R72): `STATUS = RUN` and `pc < END`. -/
abbrev AtByteCode (s : State) : Prop := s.status = .run ∧ s.pc + 1 < s.len

/-- The END step is enabled here (40_start_dispatch_end R73): `STATUS = RUN` and `pc = END`. -/
abbrev AtSentinel (s : State) : Prop := s.status = .run ∧ s.pc + 1 = s.len

/-- The values of the decoder's state after reset (70_reset_and_hazards R130). -/
abbrev HasResetValues (s : State) : Prop :=
  s.status = .idle ∧ s.errKind = .none ∧ s.errVal = 0 ∧ s.len = 0 ∧ s.pc = 0 ∧ s.acc = 0 ∧ s.tsi = 0
    ∧ s.fluxq = [] ∧ s.indexq = []

/-- The queues hold what the current call has emitted: in `RUN` staged, at `DONE` the result. -/
abbrev HoldsEmissions (s : State) : Prop := s.status = .run ∨ s.status = .done

/-- ERRKIND and ERRVAL say how the call failed and nothing else (10_state R16, R17), and neither IDLE nor ERR
shows an entry of a queue (10_state R15, 60_exceptions R116). -/
abbrev StatusInv (s : State) : Prop :=
  (s.errKind ≠ .none ↔ s.status = .err)
    ∧ (s.errKind ≠ .unknownOpcode → s.errVal = 0)
    ∧ (s.errKind = .unknownOpcode → s.errVal ≠ 1 ∧ s.errVal ≠ 2)
    ∧ (s.status = .idle ∨ s.status = .err → s.fluxq = [] ∧ s.indexq = [])

/-- In `RUN` the cursor has not passed END and the sentinel is in its place (10_state R13, 20_memory R36). -/
abbrev CursorInv (s : State) : Prop :=
  s.status = .run → s.pc + 1 ≤ s.len ∧ s.byteAt (s.len - 1) = 0

/-- TSI is the time of the last flux transition minus the time of the last index pulse, each the sum of its
queue (70_reset_and_hazards R142). -/
abbrev ClockInv (s : State) : Prop :=
  HoldsEmissions s → s.tsi = (s.fluxq.sum : Int) - s.indexq.sum

/-- The invariant of the machine. -/
abbrev Inv (s : State) : Prop := Memory.wf s.buf ∧ StatusInv s ∧ CursorInv s ∧ ClockInv s

/-- `sum(FLUXQ) + ACC`, the running position in ticks (70_reset_and_hazards R142, R143). -/
def State.position (s : State) : Nat := s.fluxq.sum + s.acc

/-- The bounds of 70_reset_and_hazards R143, `k` being the bytes decoded so far, which is `pc`. -/
abbrev BoundsInv (s : State) : Prop :=
  HoldsEmissions s →
    s.acc ≤ 268435455 * (s.pc / 6)
      ∧ (∀ f ∈ s.fluxq, f ≤ 268435455 * (s.pc / 6) + 1524)
      ∧ s.position ≤ 44739243 * s.pc
      ∧ s.tsi.natAbs ≤ s.position + 268435455
      ∧ (∀ x ∈ s.indexq, x.natAbs ≤ s.position + 268435455)

/-- The time of the last index pulse is not before the start of the stream, and no later than one operand past
the running position (70_reset_and_hazards R142, R143). -/
abbrev PulseInv (s : State) : Prop :=
  HoldsEmissions s → 0 ≤ s.indexq.sum ∧ s.indexq.sum ≤ (s.position : Int) + 268435455

/-- Each entry took at least the bytes of its byte-code (70_reset_and_hazards R144). -/
abbrev CountsInv (s : State) : Prop :=
  HoldsEmissions s → s.fluxq.length + 6 * s.indexq.length ≤ s.pc

/-- The registers, the queues and in `RUN` the buffer's length are within the machine's parameters (00_scope R5). -/
abbrev FitsInv (s : State) : Prop :=
  natFits s.params.accBits s.acc = true
    ∧ intFits s.params.tsiBits s.tsi = true
    ∧ (∀ f ∈ s.fluxq, natFits s.params.accBits f = true)
    ∧ (∀ x ∈ s.indexq, intFits s.params.tsiBits x = true)
    ∧ (∀ c, s.params.fluxqCap = some c → s.fluxq.length ≤ c)
    ∧ (∀ c, s.params.indexqCap = some c → s.indexq.length ≤ c)
    ∧ (s.status = .run → lenFits s.params.lenMax s.len = true)

/-- How many bytes of BUF, from `pc` on, the decoder's step from `RUN` depends on (20_memory R35): none for END, the
byte-code's own bytes (for a reserved opcode the lead and the opcode byte), and for a byte-code cut off by the sentinel
its lead byte and, where there is one, its opcode byte. -/
def State.bytesRead (s : State) : Nat :=
  match fetch s with
  | .ok .endOfStream => 0
  | .ok i => byteLength i
  | .error .truncated => min 2 s.remaining
  | .error .noByteCode => 0

end Sys2Proof.Machine
end

