-- ==== Sys2Proof/Certificates/Slice0/Obligations.lean ====
section
/-! DEFINITION. The statements for the provers. Each docstring names the rules of spec/ it formalises, or says that
it is the model's choice and names the log entry. -/

open Sys2Proof Sys2Proof.Machine

/-! ### Reset and START -/

/-- 70_reset_and_hazards R130: the state after reset, and that the host's reset, allowed in any state, gives it. -/
def Obligations.ResetPutsTheSpecifiedState : Prop :=
  HasResetValues State.reset ∧
    ∀ (s : State) (rest : List HostAction), s.inbox = .reset :: rest →
      ∃ t, step s = .next t ∧ HasResetValues t

/-- 40_start_dispatch_end R71, 60_exceptions R111: START, asked for outside `RUN`, re-initialises everything, then
faults exactly on an empty buffer or a last byte other than 0, and otherwise sets `STATUS` to `RUN`. -/
def Obligations.StartInitialisesAndChecksTheSentinel : Prop :=
  ∀ (s : State) (rest : List HostAction), s.inbox = .start :: rest → s.status ≠ .run →
    lenFits s.params.lenMax s.len = true →
    (s.len = 0 ∨ s.byteAt (s.len - 1) ≠ 0 →
      step s = .next { s with
        inbox := rest, status := .err, errKind := .malformedBuffer, errVal := 0, pc := 0, acc := 0, tsi := 0,
        fluxq := [], indexq := [] }) ∧
    (s.len ≠ 0 → s.byteAt (s.len - 1) = 0 →
      step s = .next { s with
        inbox := rest, status := .run, errKind := .none, errVal := 0, pc := 0, acc := 0, tsi := 0,
        fluxq := [], indexq := [] })

/-- 10_state R25, 70_reset_and_hazards R131, R146: what START leaves depends on the buffer, LEN and the parameters
alone, so nothing of an earlier decode survives. -/
def Obligations.StartForgetsTheEarlierDecode : Prop :=
  ∀ (s t : State) (rest : List HostAction), s.inbox = .start :: rest → t.inbox = .start :: rest →
    s.status ≠ .run → t.status ≠ .run → s.len = t.len →
    s.buf = t.buf → s.bufSeed = t.bufSeed → s.params = t.params → step s = step t

/-- The model's choices where START stops: in `RUN` (93_implementation_defined U8, log entry 4), and on a buffer longer
than a finite LEN_MAX before its last byte is looked at (00_scope R5, log entry 5). -/
def Obligations.StartStopsWhereNotAllowed : Prop :=
  ∀ (s : State) (rest : List HostAction), s.inbox = .start :: rest →
    (s.status = .run → step s = .refused .startWhileRunning) ∧
    (s.status ≠ .run → lenFits s.params.lenMax s.len = false → step s = .refused .capacityExceeded)

/-! ### The byte-codes: results and completion -/

/-- 41_flux_codes R82: FLUX1, one byte, appends `ACC + b`, adds all of it to TSI, clears ACC, advances by 1. -/
def Obligations.Flux1EmitsTheAccumulatedInterval : Prop :=
  ∀ (b : Byte) (s : State), WellFormed (.flux1 b) → AtByteCode s →
    natFits s.params.accBits (s.acc + b.toNat) = true →
    intFits s.params.tsiBits (s.tsi + (s.acc + b.toNat)) = true →
    hasRoom s.params.fluxqCap s.fluxq.length = true →
    encode (.flux1 b) = [b] ∧
    exec (.flux1 b) s = .next { s with
      fluxq := s.fluxq ++ [s.acc + b.toNat], tsi := s.tsi + (s.acc + b.toNat), acc := 0, pc := s.pc + 1 }

/-- 41_flux_codes R84: FLUX2, two bytes, with its extra byte before the sentinel does the same with its immediate
`250 + (b - 250) * 255 + e - 1` and advances by 2; with no prefix byte after the lead byte it raises
UnexpectedEndOfStream. -/
def Obligations.Flux2EmitsTheAccumulatedInterval : Prop :=
  ∀ (b e : Byte) (s : State) (n : Nat), WellFormed (.flux2 b e) → AtByteCode s →
    n = 250 + (b.toNat - 250) * 255 + e.toNat - 1 →
    encode (.flux2 b e) = [b, e] ∧ 249 ≤ n ∧ n ≤ 1524 ∧
    (s.remaining < 2 → exec (.flux2 b e) s = .next { s with
      status := .err, errKind := .unexpectedEndOfStream, errVal := 0, fluxq := [], indexq := [] }) ∧
    (2 ≤ s.remaining →
      natFits s.params.accBits (s.acc + n) = true →
      intFits s.params.tsiBits (s.tsi + (s.acc + n)) = true →
      hasRoom s.params.fluxqCap s.fluxq.length = true →
      exec (.flux2 b e) s = .next { s with
        fluxq := s.fluxq ++ [s.acc + n], tsi := s.tsi + (s.acc + n), acc := 0, pc := s.pc + 2 })

/-- 42_escape_codes R95: INDEX, bytes `FF 01 b0 b1 b2 b3`, appends `TSI + ACC + val`, sets TSI to `-(ACC + val)`, keeps
ACC and FLUXQ, advances by 6; with fewer than four prefix bytes after the opcode it raises UnexpectedEndOfStream; what
does not fit a finite parameter is refused. -/
def Obligations.IndexAppendsThePulseDistance : Prop :=
  ∀ (b0 b1 b2 b3 : Byte) (s : State) (val : Nat), AtByteCode s → val = u28 b0 b1 b2 b3 →
    encode (.index b0 b1 b2 b3) = [0xFF, 0x01, b0, b1, b2, b3] ∧ val < 2 ^ 28 ∧
    (s.remaining < 6 → exec (.index b0 b1 b2 b3) s = .next { s with
      status := .err, errKind := .unexpectedEndOfStream, errVal := 0, fluxq := [], indexq := [] }) ∧
    (6 ≤ s.remaining →
      intFits s.params.tsiBits (s.tsi + s.acc + val) = true →
      intFits s.params.tsiBits (-(s.acc + val)) = true →
      hasRoom s.params.indexqCap s.indexq.length = true →
      exec (.index b0 b1 b2 b3) s = .next { s with
        indexq := s.indexq ++ [s.tsi + s.acc + val], tsi := -(s.acc + val), pc := s.pc + 6 }) ∧
    (6 ≤ s.remaining →
      intFits s.params.tsiBits (s.tsi + s.acc + val) = false
        ∨ intFits s.params.tsiBits (-(s.acc + val)) = false
        ∨ hasRoom s.params.indexqCap s.indexq.length = false →
      exec (.index b0 b1 b2 b3) s = .refused .capacityExceeded)

/-- 42_escape_codes R97: SPACE, bytes `FF 02 b0 b1 b2 b3`, adds its operand to ACC, keeps TSI, FLUXQ and INDEXQ, advances
by 6; with fewer than four prefix bytes after the opcode it raises UnexpectedEndOfStream; a sum that does not fit a
finite width is refused. -/
def Obligations.SpaceAddsToTheAccumulator : Prop :=
  ∀ (b0 b1 b2 b3 : Byte) (s : State) (val : Nat), AtByteCode s → val = u28 b0 b1 b2 b3 →
    encode (.space b0 b1 b2 b3) = [0xFF, 0x02, b0, b1, b2, b3] ∧ val < 2 ^ 28 ∧
    (s.remaining < 6 → exec (.space b0 b1 b2 b3) s = .next { s with
      status := .err, errKind := .unexpectedEndOfStream, errVal := 0, fluxq := [], indexq := [] }) ∧
    (6 ≤ s.remaining → natFits s.params.accBits (s.acc + val) = true →
      exec (.space b0 b1 b2 b3) s = .next { s with acc := s.acc + val, pc := s.pc + 6 }) ∧
    (6 ≤ s.remaining → natFits s.params.accBits (s.acc + val) = false →
      exec (.space b0 b1 b2 b3) s = .refused .capacityExceeded)

/-- 42_escape_codes R93: at `FF 01` and `FF 02` the length test comes before any operand byte is read and before any
state is written; past it the four operand bytes at `pc + 2` are fetched in address order. -/
def Obligations.OperandFetchTestsTheLengthFirst : Prop :=
  ∀ (s : State), s.inbox = [] → AtByteCode s → 2 ≤ s.remaining →
    s.byteAt s.pc = 255 → s.byteAt (s.pc + 1) = 1 ∨ s.byteAt (s.pc + 1) = 2 →
    (s.remaining < 6 → step s = .next { s with
      status := .err, errKind := .unexpectedEndOfStream, errVal := 0, fluxq := [], indexq := [] }) ∧
    ∀ (b0 b1 b2 b3 : Byte), 6 ≤ s.remaining →
      b0 = s.byteAt (s.pc + 2) → b1 = s.byteAt (s.pc + 3) → b2 = s.byteAt (s.pc + 4) → b3 = s.byteAt (s.pc + 5) →
      (s.byteAt (s.pc + 1) = 1 → step s = exec (.index b0 b1 b2 b3) s) ∧
      (s.byteAt (s.pc + 1) = 2 → step s = exec (.space b0 b1 b2 b3) s)

/-- 42_escape_codes R99: the reserved opcodes 0 and 3..255 raise UnknownOpcode with the opcode byte in ERRVAL. -/
def Obligations.ReservedOpcodesFault : Prop :=
  ∀ (s : State), AtByteCode s → 2 ≤ s.remaining →
    exec .reservedEscape0 s = .next { s with
      status := .err, errKind := .unknownOpcode, errVal := 0, fluxq := [], indexq := [] } ∧
    ∀ (op : Byte), WellFormed (.reservedEscape op) →
      exec (.reservedEscape op) s = .next { s with
        status := .err, errKind := .unknownOpcode, errVal := op, fluxq := [], indexq := [] }

/-- 42_escape_codes R90: an escape with no prefix byte after it raises UnexpectedEndOfStream, not UnknownOpcode. -/
def Obligations.ReservedOpcodesTruncated : Prop :=
  ∀ (op : Byte) (s : State), WellFormed (.reservedEscape op) → AtByteCode s → s.remaining < 2 →
    exec .reservedEscape0 s = .next { s with
      status := .err, errKind := .unexpectedEndOfStream, errVal := 0, fluxq := [], indexq := [] } ∧
    exec (.reservedEscape op) s = .next { s with
      status := .err, errKind := .unexpectedEndOfStream, errVal := 0, fluxq := [], indexq := [] }

/-- 40_start_dispatch_end R73: END, enabled at `pc = END`, sets `STATUS` to `DONE` and changes nothing else; what ACC
holds is dropped, and the sentinel byte is not read again. -/
def Obligations.EndSetsDoneAndNothingElse : Prop :=
  ∀ (s : State), AtSentinel s →
    exec .endOfStream s = .next { s with status := .done } ∧
    (s.inbox = [] → ∀ (other : Memory) (seed : Nat),
      step { s with buf := other, bufSeed := seed } = .next { s with buf := other, bufSeed := seed, status := .done })

/-- The model's choice where no rule enables a step (40_start_dispatch_end R70, R72, R73; log entry 2): a meaning
asked for there stops by name. -/
def Obligations.MeaningsStopWhereNotEnabled : Prop :=
  ∀ (i : Instr) (s : State),
    (s.status ≠ .run → exec i s = .fault .notRunning) ∧
    (s.status = .run → i ≠ .endOfStream → s.len ≤ s.pc + 1 → exec i s = .fault .noByteCodeHere) ∧
    (s.status = .run → i = .endOfStream → s.pc + 1 ≠ s.len → exec i s = .fault .notAtSentinel)

/-! ### Sequencing -/

/-- 40_start_dispatch_end R70, R72: when the bytes at `pc` decode to a byte-code, the decoder's step is that
byte-code's meaning, whether the host has no move pending or lets the decoder move. -/
def Obligations.StepRunsTheDecodedByteCode : Prop :=
  ∀ (s : State) (i : Instr), s.status = .run → s.pc < s.len → decode s.remaining s.window = .ok i →
    (s.inbox = [] → step s = exec i s) ∧
    ∀ (rest : List HostAction), s.inbox = .wait :: rest → step s = exec i { s with inbox := rest }

/-- Log entry 7: a table word that decodes is run by the very next step. -/
def Obligations.PlacedWordRunsNext : Prop :=
  ∀ (s : State) (nbits w : Nat) (i : Instr), decodeTableWord nbits w = some i →
    step (s.withFetchWord nbits w) = exec i (s.withFetchWord nbits w)

/-- 60_exceptions R112: a step raises UnknownOpcode(op) exactly on a lead byte 255 followed, inside the prefix, by
an opcode byte other than 1 and 2, however few bytes follow. -/
def Obligations.UnknownOpcodeExactly : Prop :=
  ∀ (s : State) (op : Byte), s.inbox = [] → s.status = .run →
    ((∃ t, step s = .next t ∧ t.status = .err ∧ t.errKind = .unknownOpcode ∧ t.errVal = op) ↔
      s.pc + 1 < s.len ∧ s.byteAt s.pc = 255 ∧ 2 ≤ s.remaining ∧ s.byteAt (s.pc + 1) = op ∧ op ≠ 1 ∧ op ≠ 2)

/-- 60_exceptions R113: a step raises UnexpectedEndOfStream exactly in the cases of the rule's table. -/
def Obligations.UnexpectedEndOfStreamExactly : Prop :=
  ∀ (s : State), s.inbox = [] → s.status = .run →
    ((∃ t, step s = .next t ∧ t.status = .err ∧ t.errKind = .unexpectedEndOfStream ∧ t.errVal = 0) ↔
      s.pc + 1 < s.len ∧ ∃ b, b = s.byteAt s.pc ∧
        (250 ≤ b.toNat ∧ b.toNat ≤ 254 ∧ s.remaining < 2
          ∨ b = 255 ∧ s.remaining < 2
          ∨ b = 255 ∧ 2 ≤ s.remaining ∧ s.remaining < 6 ∧
            (s.byteAt (s.pc + 1) = 1 ∨ s.byteAt (s.pc + 1) = 2)))

/-- 60_exceptions R116: what `raise` does, and that a decoder's step that ends in `ERR` has done exactly that, for one
of the two kinds a byte-code can raise (MalformedBuffer is START's alone, R111). -/
def Obligations.RaiseDoesThisAndNothingElse : Prop :=
  (∀ (s : State) (k : ErrKind) (info : Byte), s.raise k info =
    { s with
      status := .err, errKind := k, errVal := if k = .unknownOpcode then info else 0, fluxq := [], indexq := [] }) ∧
  (∀ (s t : State), s.inbox = [] → s.status = .run → step s = .next t → t.status = .err →
    ∃ k info, (k = .unknownOpcode ∨ k = .unexpectedEndOfStream) ∧ t = s.raise k info) ∧
  (∀ (s t : State) (rest : List HostAction), s.inbox = .start :: rest → step s = .next t → t.status = .err →
    t = { s with inbox := rest }.reinit.raise .malformedBuffer 0)

/-- 40_start_dispatch_end R74: after a byte-code of length `n` at `pc` the next is at `pc + n`, and `n` is 1, 2
or 6. -/
def Obligations.CursorMovesByTheLengthAlone : Prop :=
  ∀ (s t : State) (i : Instr), s.inbox = [] → s.status = .run → s.pc < s.len →
    decode s.remaining s.window = .ok i → step s = .next t → t.status = .run →
    t.pc = s.pc + byteLength i ∧ (byteLength i = 1 ∨ byteLength i = 2 ∨ byteLength i = 6) ∧ t.pc + 1 ≤ t.len

/-- 10_state R15, 60_exceptions R118: in `IDLE`, `DONE` and `ERR` no decoder step is enabled, and only START or reset
leads from `DONE` or `ERR` to another status. -/
def Obligations.EndedDecodesWaitForTheHost : Prop :=
  (∀ (s : State), s.inbox = [] → s.status ≠ .run → step s = .next s) ∧
  (∀ (s t : State), s.status ≠ .run → step s = .next t → t.status ≠ s.status →
    ∃ rest, s.inbox = .start :: rest ∨ s.inbox = .reset :: rest)

/-- 40_start_dispatch_end R70: in a sound `RUN` state at the default parameters one step is enabled, whatever the buffer
holds. -/
def Obligations.RunningDecoderAlwaysSteps : Prop :=
  ∀ (s : State), Inv s → s.params = Params.unbounded → s.inbox = [] → s.status = .run → ∃ t, step s = .next t

/-- 40_start_dispatch_end R75, 70_reset_and_hazards R137: a running decode ends within the bytes left and the END
step, whatever the buffer holds. -/
def Obligations.RunningDecodeEnds : Prop :=
  ∀ (s : State), Inv s → s.params = Params.unbounded → s.inbox = [] → s.status = .run →
    ∃ t : State, Host.Core.run Sys2Proof.core (s.len - s.pc) s = .next t ∧ (t.status = .done ∨ t.status = .err)

/-- 10_state R20, R24, 40_start_dispatch_end R71, R72: a byte the host never wrote has some value, the free byte of its
address (log entry 1), and reading it stops neither START nor a byte-code, wherever in the byte-code it stands; the one
fetch that stops is at a cursor past the sentinel, which no rule enables (log entry 2). -/
def Obligations.NoBufferByteStopsAStep : Prop :=
  ∀ (s : State),
    (∀ a, readByte s.buf a = none → s.byteAt a = Config.freeByte s.bufSeed a) ∧
    (∀ (rest : List HostAction) (f : Fault), s.inbox = .start :: rest → step s ≠ .fault f) ∧
    (s.inbox = [] → s.status = .run → s.pc < s.len → ∀ f : Fault, step s ≠ .fault f) ∧
    (s.inbox = [] → s.status = .run → s.len ≤ s.pc → step s = .fault .noByteCodeHere)

/-! ### Encoding -/

/-- Words written out from 30_encoding R51-R53, R61, R62 (spec/95_test_vectors.md P1, P3, V111). -/
def Obligations.WrittenWordsDecode : Prop :=
  decode 1 [0xF9] = .ok (.flux1 0xF9) ∧
  decode 2 [0xFA, 0x33] = .ok (.flux2 0xFA 0x33) ∧
  decode 6 [0xFF, 0x01, 0x0A, 0x00, 0x00, 0x00] = .ok (.index 0x0A 0 0 0) ∧
  decode 6 [0xFF, 0x02, 0xD0, 0x0E, 0x00, 0x00] = .ok (.space 0xD0 0x0E 0 0) ∧
  decode 2 [0xFF, 0x00] = .ok .reservedEscape0 ∧
  decode 2 [0xFF, 0x03] = .ok (.reservedEscape 3) ∧
  decode 0 [0x00] = .ok .endOfStream

/-- 30_encoding R50-R53, R56: decoding an encoded well-formed byte-code gives it back, every operand bit included,
whatever bytes follow. -/
def Obligations.DecodeOfEncodeIsTheInstruction : Prop :=
  ∀ (i : Instr) (rem : Nat) (rest : List Byte), WellFormed i → FitsBefore i rem →
    decode rem (encode i ++ rest) = .ok i

/-- 30_encoding R54, R55, R61: what is read is well formed, lies before the sentinel, and is spelled by the bytes at
`pc` bit for bit. -/
def Obligations.DecodedInstructionIsSpelledByItsBytes : Prop :=
  ∀ (i : Instr) (rem : Nat) (bytes : List Byte), decode rem bytes = .ok i →
    WellFormed i ∧ FitsBefore i rem ∧ (i ≠ .endOfStream → encode i <+: bytes)

/-- 30_encoding R54, R55: the lead-byte map and the opcode map, total over all bytes. -/
def Obligations.LeadByteAndOpcodeSelect : Prop :=
  ∀ (rem : Nat) (b c o0 o1 o2 o3 : Byte) (rest : List Byte), 6 ≤ rem →
    decode rem (b :: c :: o0 :: o1 :: o2 :: o3 :: rest) = .ok (
      if b.toNat ≤ 249 then .flux1 b
      else if b.toNat ≤ 254 then .flux2 b c
      else if c = 1 then .index o0 o1 o2 o3
      else if c = 2 then .space o0 o1 o2 o3
      else if c = 0 then .reservedEscape0
      else .reservedEscape c)

/-- 30_encoding R59: the packed operand is the sum of its four 7-bit groups, least significant first, and an unsigned
28-bit number. -/
def Obligations.PackedOperandIsTheSumOfItsGroups : Prop :=
  ∀ (b0 b1 b2 b3 : Byte),
    u28 b0 b1 b2 b3 =
      b0.toNat / 2 + b1.toNat / 2 * 2 ^ 7 + b2.toNat / 2 * 2 ^ 14 + b3.toNat / 2 * 2 ^ 21
    ∧ u28 b0 b1 b2 b3 ≤ 268435455

/-- 30_encoding R63: `P28r` is a right inverse of the packed operand whatever the reserved bits, `P28r` of an operand with
its bytes' own reserved bits is those bytes, and `P28` of an operand is its bytes with the reserved bits cleared. -/
def Obligations.PackingInvertsUnpacking : Prop :=
  (∀ (v : Nat) (r0 r1 r2 r3 : Bool), v < 2 ^ 28 →
    ∃ b0 b1 b2 b3, p28r v r0 r1 r2 r3 = [b0, b1, b2, b3] ∧ u28 b0 b1 b2 b3 = v) ∧
  (∀ (b0 b1 b2 b3 : Byte),
    p28r (u28 b0 b1 b2 b3) (b0.getLsbD 0) (b1.getLsbD 0) (b2.getLsbD 0) (b3.getLsbD 0) = [b0, b1, b2, b3]) ∧
  (∀ (b0 b1 b2 b3 : Byte), p28 (u28 b0 b1 b2 b3) = [b0 &&& 0xFE, b1 &&& 0xFE, b2 &&& 0xFE, b3 &&& 0xFE])

/-- 30_encoding R58: FLUX2's immediate lies in 249..1524, `e = 0` spells `249 + 255 * k`, and with `e` in 1..255 the
bands tile 250..1524 without gap or overlap. -/
def Obligations.Flux2ImmediatesTileTheBands : Prop :=
  (∀ (b e : Byte), WellFormed (.flux2 b e) →
    flux2Imm b e = 250 + (b.toNat - 250) * 255 + e.toNat - 1 ∧ 249 ≤ flux2Imm b e ∧ flux2Imm b e ≤ 1524
      ∧ flux2Imm b 0 = 249 + 255 * (b.toNat - 250)) ∧
  (∀ (n : Nat), 250 ≤ n → n ≤ 1524 →
    ∃ b e : Byte, (WellFormed (.flux2 b e) ∧ e ≠ 0 ∧ flux2Imm b e = n) ∧
      ∀ b' e' : Byte, WellFormed (.flux2 b' e') → e' ≠ 0 → flux2Imm b' e' = n → b' = b ∧ e' = e)

/-- 30_encoding R60, 42_escape_codes R92: the reserved bit of each operand byte makes no difference to what INDEX and
SPACE do. -/
def Obligations.ReservedBitsAreIgnored : Prop :=
  ∀ (b0 b1 b2 b3 c0 c1 c2 c3 : Byte) (s : State),
    b0.toNat / 2 = c0.toNat / 2 → b1.toNat / 2 = c1.toNat / 2 → b2.toNat / 2 = c2.toNat / 2 →
    b3.toNat / 2 = c3.toNat / 2 →
    exec (.index b0 b1 b2 b3) s = exec (.index c0 c1 c2 c3) s ∧
    exec (.space b0 b1 b2 b3) s = exec (.space c0 c1 c2 c3) s

/-- 30_encoding R64-R66: the pseudo-instruction `FLUX n` can be assembled for every `n`, and its bytes append exactly one
interval, `ACC + n`, and leave ACC 0. -/
def Obligations.PseudoFluxEmitsOneInterval : Prop :=
  ∀ (n : Nat), ∃ bs, assemble (fluxStmts n) = some bs ∧
    ∀ (rest : List Byte) (acc : Nat) (tsi : Int) (flux : List Nat) (index : List Int),
      decodeLoop (bs ++ rest) acc tsi flux index
        = decodeLoop rest 0 (tsi + (acc + n)) (flux ++ [acc + n]) index

/-! ### Frames -/

/-- 41_flux_codes R80: FLUX1 and FLUX2, unless they fault, change FLUXQ, TSI, ACC and pc alone. -/
def Obligations.FluxCodesFrame : Prop :=
  ∀ (b e : Byte) (s t : State), exec (.flux1 b) s = .next t ∨ exec (.flux2 b e) s = .next t → t.status ≠ .err →
    t.status = s.status ∧ t.errKind = s.errKind ∧ t.errVal = s.errVal ∧ t.len = s.len ∧ t.indexq = s.indexq
      ∧ t.inbox = s.inbox ∧ t.params = s.params ∧ t.bufSeed = s.bufSeed
      ∧ ∀ a, t.byteAt a = s.byteAt a

/-- 42_escape_codes R95: INDEX, unless it faults, changes INDEXQ, TSI and pc alone. -/
def Obligations.IndexFrame : Prop :=
  ∀ (b0 b1 b2 b3 : Byte) (s t : State), exec (.index b0 b1 b2 b3) s = .next t → t.status ≠ .err →
    t.status = s.status ∧ t.errKind = s.errKind ∧ t.errVal = s.errVal ∧ t.len = s.len ∧ t.acc = s.acc
      ∧ t.fluxq = s.fluxq ∧ t.inbox = s.inbox ∧ t.params = s.params ∧ t.bufSeed = s.bufSeed
      ∧ ∀ a, t.byteAt a = s.byteAt a

/-- 42_escape_codes R97: SPACE, unless it faults, changes ACC and pc alone. -/
def Obligations.SpaceFrame : Prop :=
  ∀ (b0 b1 b2 b3 : Byte) (s t : State), exec (.space b0 b1 b2 b3) s = .next t → t.status ≠ .err →
    t.status = s.status ∧ t.errKind = s.errKind ∧ t.errVal = s.errVal ∧ t.len = s.len ∧ t.tsi = s.tsi
      ∧ t.fluxq = s.fluxq ∧ t.indexq = s.indexq ∧ t.inbox = s.inbox ∧ t.params = s.params ∧ t.bufSeed = s.bufSeed
      ∧ ∀ a, t.byteAt a = s.byteAt a

/-- 40_start_dispatch_end R73: END changes STATUS alone. -/
def Obligations.EndFrame : Prop :=
  ∀ (s t : State), exec .endOfStream s = .next t →
    t.errKind = s.errKind ∧ t.errVal = s.errVal ∧ t.len = s.len ∧ t.pc = s.pc ∧ t.acc = s.acc ∧ t.tsi = s.tsi
      ∧ t.fluxq = s.fluxq ∧ t.indexq = s.indexq ∧ t.inbox = s.inbox ∧ t.params = s.params ∧ t.bufSeed = s.bufSeed
      ∧ ∀ a, t.byteAt a = s.byteAt a

/-- 60_exceptions R116: a byte-code that faults, the reserved opcodes among them, leaves pc, ACC, TSI, LEN and the buffer
as they were and empties both queues. -/
def Obligations.FaultingByteCodesFrame : Prop :=
  ∀ (i : Instr) (s t : State), exec i s = .next t → t.status = .err →
    t.len = s.len ∧ t.pc = s.pc ∧ t.acc = s.acc ∧ t.tsi = s.tsi ∧ t.fluxq = [] ∧ t.indexq = []
      ∧ t.inbox = s.inbox ∧ t.params = s.params ∧ t.bufSeed = s.bufSeed
      ∧ ∀ a, t.byteAt a = s.byteAt a

/-- 20_memory R38: while a decode runs without fault the queues are only appended to, by one entry in all. -/
def Obligations.QueuesOnlyGrow : Prop :=
  ∀ (s t : State), s.inbox = [] → s.status = .run → step s = .next t → t.status ≠ .err →
    s.fluxq <+: t.fluxq ∧ s.indexq <+: t.indexq ∧
      t.fluxq.length + t.indexq.length ≤ s.fluxq.length + s.indexq.length + 1

/-- 20_memory R43, 70_reset_and_hazards R133: from `RUN` no step but the host's reset changes BUF or LEN. -/
def Obligations.BufferStaysWhileRunning : Prop :=
  ∀ (s t : State), s.status = .run → s.inbox.head? ≠ some .reset → step s = .next t →
    t.len = s.len ∧ t.bufSeed = s.bufSeed ∧ ∀ a, t.byteAt a = s.byteAt a

/-- 20_memory R35, R37: what a step from `RUN` does depends on no buffer byte but the `bytesRead` of the byte-code at
`pc`, all of which lie before the sentinel. -/
def Obligations.StepReadsOnlyItsOwnBytes : Prop :=
  ∀ (s t : State) (other : Memory) (seed : Nat),
    s.inbox = [] → s.status = .run → t = { s with buf := other, bufSeed := seed } →
    (∀ a, s.pc ≤ a → a < s.pc + s.bytesRead → t.byteAt a = s.byteAt a) →
    s.bytesRead ≤ s.remaining ∧
    (∀ u, step s = .next u → step t = .next { u with buf := other, bufSeed := seed }) ∧
    (∀ r, step s = .refused r → step t = .refused r) ∧
    (∀ f, step s = .fault f → step t = .fault f)

/-! ### The host -/

/-- 70_reset_and_hazards R136: outside `RUN` the host's writes change BUF or LEN and nothing else, and its reads change
nothing; STATUS can be read in `RUN` too. -/
def Obligations.HostMovesOutsideRun : Prop :=
  ∀ (s : State) (rest : List HostAction),
    (∀ a b, s.status ≠ .run → s.inbox = .writeBuf a b :: rest →
      ∃ m t, t = { s with inbox := rest, buf := m } ∧ step s = .next t ∧
        ∀ x, t.byteAt x = if x = a then b else s.byteAt x) ∧
    (∀ n, s.status ≠ .run → s.inbox = .writeLen n :: rest → step s = .next { s with inbox := rest, len := n }) ∧
    (s.status ≠ .run → s.inbox = .readQueues :: rest → step s = .next { s with inbox := rest }) ∧
    (s.inbox = .readStatus :: rest → step s = .next { s with inbox := rest })

/-- 70_reset_and_hazards R133, R134, 93_implementation_defined U7, U8: the moves the host must not make in `RUN` are
refused by name. The refusals are the model's (log entry 4). -/
def Obligations.ForbiddenHostMovesAreRefused : Prop :=
  ∀ (s : State) (rest : List HostAction), s.status = .run →
    (∀ a b, s.inbox = .writeBuf a b :: rest → step s = .refused .bufferWrittenWhileRunning) ∧
    (∀ n, s.inbox = .writeLen n :: rest → step s = .refused .lenWrittenWhileRunning) ∧
    (s.inbox = .start :: rest → step s = .refused .startWhileRunning) ∧
    (s.inbox = .readQueues :: rest → step s = .refused .queuesReadWhileRunning)

/-- 70_reset_and_hazards R132: the host's moves of a load put the buffer in place, byte by byte, and LEN with it. -/
def Obligations.LoadedBufferIsInPlace : Prop :=
  ∀ (s : State) (bs : List Byte), s.status ≠ .run → s.inbox = loadMoves bs →
    ∃ t : State, Host.Core.run Sys2Proof.core (bs.length + 1) s = .next t ∧ t.len = bs.length
      ∧ t.bytesFrom 0 t.len = bs ∧ t.inbox = [.start] ∧ t.status = s.status

/-- 10_state R23: the host sees nothing of pc, ACC and TSI, and nothing of the queues in `RUN`. -/
def Obligations.HostSeesNoWorkingState : Prop :=
  ∀ (s t : State), s.status = t.status → s.errKind = t.errKind → s.errVal = t.errVal →
    (s.status ≠ .run → s.fluxq = t.fluxq ∧ s.indexq = t.indexq) → s.hostView = t.hostView

/-- 20_memory R45: the END step makes both queues visible together, and a fault empties both together. -/
def Obligations.QueuesCommitTogether : Prop :=
  (∀ (s : State), s.inbox = [] → AtSentinel s →
    ∃ t, step s = .next t ∧ s.hostView.queues = none ∧ t.hostView.queues = some (s.fluxq, s.indexq)) ∧
  (∀ (s t : State), s.inbox = [] → s.status = .run → step s = .next t → t.status = .err →
    s.hostView.queues = none ∧ t.hostView.queues = some ([], []))

/-! ### Parameters -/

/-- 00_scope R5: at the default parameters nothing the decoder does, and no START outside `RUN`, is refused. -/
def Obligations.NothingIsRefusedAtTheDefaults : Prop :=
  ∀ (s : State) (r : Refusal), s.params = Params.unbounded →
    (∀ i, exec i s ≠ .refused r) ∧
    (s.inbox = [] → step s ≠ .refused r) ∧
    (∀ rest, s.status ≠ .run → s.inbox = .start :: rest → step s ≠ .refused r)

/-- 60_exceptions R123, 41_flux_codes R80, 42_escape_codes R95, R97: where its bytes lie before the sentinel a byte-code
is refused exactly when an exact value or an append does not fit the parameters. -/
def Obligations.RefusedExactlyWhereNotFitting : Prop :=
  ∀ (i : Instr) (s : State), AtByteCode s → FitsBefore i s.remaining →
    (exec i s = .refused .capacityExceeded ↔
      match i with
      | .flux1 b => natFits s.params.accBits (s.acc + b.toNat) = false
          ∨ intFits s.params.tsiBits (s.tsi + (s.acc + b.toNat)) = false
          ∨ hasRoom s.params.fluxqCap s.fluxq.length = false
      | .flux2 b e => natFits s.params.accBits (s.acc + flux2Imm b e) = false
          ∨ intFits s.params.tsiBits (s.tsi + (s.acc + flux2Imm b e)) = false
          ∨ hasRoom s.params.fluxqCap s.fluxq.length = false
      | .index b0 b1 b2 b3 => intFits s.params.tsiBits (s.tsi + s.acc + u28 b0 b1 b2 b3) = false
          ∨ intFits s.params.tsiBits (-(s.acc + u28 b0 b1 b2 b3)) = false
          ∨ hasRoom s.params.indexqCap s.indexq.length = false
      | .space b0 b1 b2 b3 => natFits s.params.accBits (s.acc + u28 b0 b1 b2 b3) = false
      | .reservedEscape0 => False
      | .reservedEscape _ => False
      | .endOfStream => False)

/-- 00_scope R5: the parameters are fixed for the machine (the model's field, log entry 3). -/
def Obligations.NoStepChangesTheParameters : Prop :=
  ∀ (s t : State), step s = .next t → t.params = s.params

/-! ### Invariants -/

/-- 10_state R13, R16, R17, 20_memory R36, 70_reset_and_hazards R142: every step keeps the canonical form of the buffer,
the meaning of STATUS, ERRKIND and ERRVAL, the cursor before the sentinel, and `TSI = T - P`. -/
def Obligations.EveryStepKeepsTheInvariant : Prop :=
  ∀ (s t : State), Inv s → step s = .next t → Inv t

/-- Every invariant named here holds after reset. -/
def Obligations.ResetMeetsTheInvariants : Prop :=
  Inv State.reset ∧ PulseInv State.reset ∧ BoundsInv State.reset ∧ CountsInv State.reset ∧ FitsInv State.reset

/-- 70_reset_and_hazards R143: every step keeps the bounds on ACC, TSI and the queue entries. -/
def Obligations.EveryStepKeepsTheBounds : Prop :=
  ∀ (s t : State), Inv s → PulseInv s → BoundsInv s → step s = .next t → PulseInv t ∧ BoundsInv t

/-- 70_reset_and_hazards R144: every step keeps the bound on the number of entries. -/
def Obligations.EveryStepKeepsTheCounts : Prop :=
  ∀ (s t : State), CountsInv s → step s = .next t → CountsInv t

/-- 60_exceptions R123: no value is ever wrapped: every step keeps the registers, the queues and, in `RUN`, the buffer's
length within the machine's parameters, whatever they are. -/
def Obligations.EveryStepStaysWithinTheParameters : Prop :=
  ∀ (s t : State), FitsInv s → step s = .next t → FitsInv t

/-- 70_reset_and_hazards R142: after an INDEX the sum of the index entries is the absolute time of its pulse, the running
position plus the operand. -/
def Obligations.IndexEntriesSumToThePulseTime : Prop :=
  ∀ (b0 b1 b2 b3 : Byte) (s t : State), ClockInv s → exec (.index b0 b1 b2 b3) s = .next t → t.status = .run →
    t.indexq.sum = (s.fluxq.sum : Int) + s.acc + u28 b0 b1 b2 b3

/-- 42_escape_codes R96 (3): of two INDEX codes with nothing between, the second entry is the difference of the operands,
negative when the second is smaller. -/
def Obligations.SecondIndexEntryIsTheDifference : Prop :=
  ∀ (b0 b1 b2 b3 c0 c1 c2 c3 : Byte) (s t u : State),
    exec (.index b0 b1 b2 b3) s = .next t → exec (.index c0 c1 c2 c3) t = .next u → u.status = .run →
    u.indexq = s.indexq ++ [s.tsi + s.acc + u28 b0 b1 b2 b3, (u28 c0 c1 c2 c3 : Int) - u28 b0 b1 b2 b3]

/-- 42_escape_codes R98 (1), (3): successive SPACE codes add up, and the next flux code emits their ticks with its own. -/
def Obligations.SpacesAddUpInTheNextInterval : Prop :=
  ∀ (b0 b1 b2 b3 c0 c1 c2 c3 b : Byte) (s t u v : State),
    exec (.space b0 b1 b2 b3) s = .next t → exec (.space c0 c1 c2 c3) t = .next u → exec (.flux1 b) u = .next v →
    v.status = .run →
    v.fluxq = s.fluxq ++ [s.acc + u28 b0 b1 b2 b3 + u28 c0 c1 c2 c3 + b.toNat] ∧ v.acc = 0

/-! ### The whole decode -/

/-- 70_reset_and_hazards R141: for every BUF and LEN, the step machine started by START ends within LEN + 1 steps with
the result `decode_flux` gives, and with both queues empty if that is a fault. -/
def Obligations.StepMachineAgreesWithDecodeFlux : Prop :=
  ∀ (s : State), s.inbox = [.start] → s.status ≠ .run → s.params = Params.unbounded →
    ∃ t : State, Host.Core.run Sys2Proof.core (s.len + 1) s = .next t
      ∧ t.result = some (decodeFlux (s.bytesFrom 0 s.len)) ∧ (t.status = .err → t.fluxq = [] ∧ t.indexq = [])

/-- 70_reset_and_hazards R145: the outputs are append-only in the stream: if a buffer's prefix decodes, what follows it
only adds entries. -/
def Obligations.LongerStreamsOnlyAddEntries : Prop :=
  ∀ (xs ys : List Byte) (f1 f2 : List Nat) (i1 i2 : List Int),
    decodeFlux (xs ++ [0]) = .ok f1 i1 → decodeFlux (xs ++ ys ++ [0]) = .ok f2 i2 → f1 <+: f2 ∧ i1 <+: i2
end

