-- ==== Sys2Proof/Laws/Decode.lean ====
section
/-! SUPPORT. What the decoder reads, form by form. -/
namespace Sys2Proof

@[simp] theorem decode_zero (bytes : List Byte) : decode 0 bytes = .ok .endOfStream := by simp [decode]

theorem decode_flux1 {rem : Nat} {b : Byte} {tail : List Byte} (hr : rem ≠ 0) (hb : b.toNat ≤ 249) :
    decode rem (b :: tail) = .ok (.flux1 b) := by simp [decode, hr, hb]

theorem decode_flux2 {rem : Nat} {b c : Byte} {tail : List Byte} (hr : 2 ≤ rem) (h1 : 250 ≤ b.toNat)
    (h2 : b.toNat ≤ 254) : decode rem (b :: c :: tail) = .ok (.flux2 b c) := by
  have h0 : rem ≠ 0 := by omega
  have h3 : ¬ b.toNat ≤ 249 := by omega
  have h4 : ¬ rem < 2 := by omega
  simp [decode, h0, h2, h3, h4]

theorem decode_escape {rem : Nat} {b c : Byte} {tail : List Byte} (hr : 2 ≤ rem) (hb : b.toNat = 255) :
    decode rem (b :: c :: tail) = decodeEscape rem c tail := by
  have h0 : rem ≠ 0 := by omega
  have h4 : ¬ rem < 2 := by omega
  simp [decode, h0, h4, hb]

/-- A lead byte from 250 on with no prefix byte after it is a truncated byte-code (60_exceptions R113). -/
theorem decode_truncated_lead {b : Byte} {tail : List Byte} (hb : 250 ≤ b.toNat) :
    decode 1 (b :: tail) = .error .truncated := by
  have h : ¬ b.toNat ≤ 249 := by omega
  simp [decode, h]

theorem decodeOperands_eq_ok {rem : Nat} {form : Byte → Byte → Byte → Byte → Instr} {l : List Byte} {i : Instr} :
    decodeOperands rem form l = .ok i ↔
      6 ≤ rem ∧ ∃ b0 b1 b2 b3 tail, l = b0 :: b1 :: b2 :: b3 :: tail ∧ i = form b0 b1 b2 b3 := by
  unfold decodeOperands
  split
  · next h => simp; omega
  · next h =>
    have h6 : 6 ≤ rem := by omega
    split
    · simp [h6, eq_comm]
    · next hn =>
      simp only [reduceCtorEq, false_iff, not_and, not_exists]
      rintro - b0 b1 b2 b3 tail e -
      exact hn _ _ _ _ _ e

/-- Everything the decoder can read. -/
theorem decode_cases {rem : Nat} {bytes : List Byte} {i : Instr} (h : decode rem bytes = .ok i) :
    (rem = 0 ∧ i = .endOfStream) ∨
      (1 ≤ rem ∧ ∃ b tail, bytes = b :: tail ∧ b.toNat ≤ 249 ∧ i = .flux1 b) ∨
      (2 ≤ rem ∧ ∃ b c tail, bytes = b :: c :: tail ∧ 250 ≤ b.toNat ∧ b.toNat ≤ 254 ∧ i = .flux2 b c) ∨
      (2 ≤ rem ∧ ∃ c tail, bytes = 255 :: c :: tail ∧ decodeEscape rem c tail = .ok i) := by
  unfold decode at h
  split at h
  · next h0 => simp_all
  · next h0 =>
    have h1 : 1 ≤ rem := by omega
    split at h
    · simp at h
    · next b tail =>
      split at h
      · next hb => exact .inr (.inl ⟨h1, b, tail, rfl, hb, by simpa using h.symm⟩)
      · next hb =>
        split at h
        · simp at h
        · next h2 =>
          split at h
          · simp at h
          · next c tail2 =>
            split at h
            · next hb2 =>
              exact .inr (.inr (.inl ⟨by omega, b, c, tail2, rfl, by omega, hb2, by simpa using h.symm⟩))
            · next hb2 =>
              have : b = 255 := by
                apply BitVec.eq_of_toNat_eq
                have := b.isLt
                simp; omega
              exact .inr (.inr (.inr ⟨by omega, c, tail2, by rw [this], h⟩))

/-- Everything the opcode map can read. -/
theorem decodeEscape_cases {rem : Nat} {op : Byte} {l : List Byte} {i : Instr}
    (h : decodeEscape rem op l = .ok i) :
    (op = 1 ∧ 6 ≤ rem ∧ ∃ b0 b1 b2 b3 tail, l = b0 :: b1 :: b2 :: b3 :: tail ∧ i = .index b0 b1 b2 b3) ∨
      (op = 2 ∧ 6 ≤ rem ∧ ∃ b0 b1 b2 b3 tail, l = b0 :: b1 :: b2 :: b3 :: tail ∧ i = .space b0 b1 b2 b3) ∨
      (op = 0 ∧ i = .reservedEscape0) ∨
      (3 ≤ op.toNat ∧ i = .reservedEscape op) := by
  unfold decodeEscape at h
  split at h
  · next e => exact .inl ⟨e, decodeOperands_eq_ok.mp h⟩
  · next h1 =>
    split at h
    · next e => exact .inr (.inl ⟨e, decodeOperands_eq_ok.mp h⟩)
    · next h2 =>
      split at h
      · next e => exact .inr (.inr (.inl ⟨e, by simpa using h.symm⟩))
      · next h0 =>
        refine .inr (.inr (.inr ⟨?_, by simpa using h.symm⟩))
        have n0 : op.toNat ≠ 0 := fun e => h0 (BitVec.eq_of_toNat_eq e)
        have n1 : op.toNat ≠ 1 := fun e => h1 (BitVec.eq_of_toNat_eq e)
        have n2 : op.toNat ≠ 2 := fun e => h2 (BitVec.eq_of_toNat_eq e)
        omega

theorem decodeOperands_ne_bytesMissing {rem : Nat} {form : Byte → Byte → Byte → Byte → Instr} {operands : List Byte}
    (h : rem < 6 ∨ 4 ≤ operands.length) : decodeOperands rem form operands ≠ .error .bytesMissing := by
  unfold decodeOperands
  split
  · simp
  · next h6 =>
    have h4 := h.resolve_left h6
    match operands with
    | b0 :: b1 :: b2 :: b3 :: tl => simp
    | [] => simp at h4
    | [_] => simp at h4
    | [_, _] => simp at h4
    | [_, _, _] => simp at h4

theorem decodeEscape_ne_bytesMissing {rem : Nat} {op : Byte} {operands : List Byte}
    (h : rem < 6 ∨ 4 ≤ operands.length) : decodeEscape rem op operands ≠ .error .bytesMissing := by
  unfold decodeEscape
  split
  · exact decodeOperands_ne_bytesMissing h
  · split
    · exact decodeOperands_ne_bytesMissing h
    · split <;> simp

/-- Given six bytes, or all the prefix has left, the decoder asks for no more. -/
theorem decode_ne_bytesMissing {rem : Nat} {bytes : List Byte} (h : min 6 rem ≤ bytes.length) :
    decode rem bytes ≠ .error .bytesMissing := by
  by_cases h0 : rem = 0
  · simp [decode, h0]
  · match bytes with
    | [] => simp at h; omega
    | [b] =>
      have h2 : rem < 2 := by simp at h; omega
      by_cases hb : b.toNat ≤ 249 <;> simp [decode, h0, hb, h2]
    | b :: c :: operands =>
      have hops : rem < 6 ∨ 4 ≤ operands.length := by simp at h; omega
      simp only [decode, h0, if_false]
      split
      · simp
      · split
        · simp
        · split
          · simp
          · exact decodeEscape_ne_bytesMissing hops

end Sys2Proof
end

