-- ==== Sys2Proof/Laws/Memory.lean ====
section
/-! SUPPORT. The laws of the buffer: reading after writing, the canonical form, that memories listing the same bytes
are equal data, and what the decoder reads. -/
namespace Sys2Proof.Machine

@[simp] theorem readByte_nil (a : Nat) : readByte [] a = none := rfl

theorem readByte_writeByte_same (m : Memory) (a : Nat) (b : Byte) : readByte (writeByte m a b) a = some b := by
  induction m with
  | nil => simp [writeByte, readByte]
  | cons c rest ih =>
    rcases Nat.lt_trichotomy a c.1 with h | h | h
    · simp [writeByte, readByte, h]
    · simp [writeByte, readByte, h]
    · have h1 : ¬ a < c.1 := by omega
      have h2 : ¬ a = c.1 := by omega
      have h3 : ¬ c.1 = a := by omega
      simp [writeByte, readByte, h1, h2, h3, ih]

theorem readByte_writeByte_other (m : Memory) {a x : Nat} (b : Byte) (h : x ≠ a) :
    readByte (writeByte m a b) x = readByte m x := by
  have h' : ¬ a = x := fun e => h e.symm
  induction m with
  | nil => simp [writeByte, readByte, h']
  | cons c rest ih =>
    unfold writeByte
    split
    · simp [readByte, h']
    · split
      · next e => simp [readByte, h', ← e]
      · simp [readByte, ih]

/-- One lemma for a read after a write. -/
theorem readByte_writeByte (m : Memory) (a x : Nat) (b : Byte) :
    readByte (writeByte m a b) x = if x = a then some b else readByte m x := by
  split
  · next h => rw [h, readByte_writeByte_same]
  · next h => exact readByte_writeByte_other m b h

theorem mem_writeByte {m : Memory} {a : Nat} {b : Byte} {c : Host.Cell} (h : c ∈ writeByte m a b) :
    c = (a, b) ∨ c ∈ m := by
  induction m with
  | nil => simpa [writeByte] using h
  | cons d rest ih =>
    unfold writeByte at h
    split at h
    · simpa using h
    · split at h
      · rcases List.mem_cons.mp h with h | h
        · exact .inl h
        · exact .inr (List.mem_cons_of_mem _ h)
      · rcases List.mem_cons.mp h with h | h
        · exact .inr (h ▸ List.mem_cons_self)
        · exact (ih h).imp id (List.mem_cons_of_mem _)

/-- A write keeps the canonical form. -/
theorem writeByte_wf {m : Memory} (a : Nat) (b : Byte) (h : Memory.wf m) : Memory.wf (writeByte m a b) := by
  induction m with
  | nil => simp [Memory.wf, writeByte]
  | cons c rest ih =>
    obtain ⟨hc, hr⟩ := List.pairwise_cons.mp h
    unfold writeByte
    split
    · next lt =>
      refine List.pairwise_cons.mpr ⟨fun d hd => ?_, h⟩
      rcases List.mem_cons.mp hd with rfl | hd
      · exact lt
      · exact lt.trans (hc d hd)
    · split
      · next e => exact List.pairwise_cons.mpr ⟨fun d hd => by simpa [e] using hc d hd, hr⟩
      · next h1 h2 =>
        refine List.pairwise_cons.mpr ⟨fun d hd => ?_, ih hr⟩
        rcases mem_writeByte hd with rfl | hd
        · show c.1 < a
          omega
        · exact hc d hd

theorem writeBytes_wf {m : Memory} (a : Nat) (bs : List Byte) (h : Memory.wf m) :
    Memory.wf (writeBytes m a bs) := by
  induction bs generalizing m a with
  | nil => exact h
  | cons b rest ih => exact ih (a + 1) (writeByte_wf a b h)

theorem reset_buf_wf : Memory.wf State.reset.buf := List.Pairwise.nil

/-- Reading after writing consecutive bytes. -/
theorem readByte_writeBytes (m : Memory) (a x : Nat) (bs : List Byte) :
    readByte (writeBytes m a bs) x = if a ≤ x ∧ x < a + bs.length then bs[x - a]? else readByte m x := by
  induction bs generalizing m a with
  | nil =>
    simp [writeBytes]
  | cons b rest ih =>
    rw [writeBytes, ih, readByte_writeByte]
    rcases Nat.lt_trichotomy x a with h | h | h
    · have h1 : ¬ a + 1 ≤ x := by omega
      have h2 : ¬ a ≤ x := by omega
      have h3 : ¬ x = a := by omega
      simp [h1, h2, h3]
    · subst h
      simp
    · have h1 : a + 1 ≤ x := by omega
      have h2 : a ≤ x := by omega
      have h3 : ¬ x = a := by omega
      have h4 : x - a = (x - (a + 1)) + 1 := by omega
      have h5 : x < a + 1 + rest.length ↔ x < a + (b :: rest).length := by
        simp only [List.length_cons]; omega
      simp only [h1, h2, h3, h4, h5, true_and, if_false, List.getElem?_cons_succ]

theorem readByte_of_forall_lt {m : Memory} {a : Nat} (h : ∀ c ∈ m, a < c.1) : readByte m a = none := by
  induction m with
  | nil => rfl
  | cons c rest ih =>
    have h1 := h c List.mem_cons_self
    have h2 : ¬ c.1 = a := by omega
    simp only [readByte, h2, if_false]
    exact ih fun d hd => h d (List.mem_cons_of_mem _ hd)

/-- Canonical memories that list the same bytes are equal data. -/
theorem memory_ext {m k : Memory} (hm : Memory.wf m) (hk : Memory.wf k)
    (h : ∀ a, readByte m a = readByte k a) : m = k := by
  induction m generalizing k with
  | nil =>
    cases k with
    | nil => rfl
    | cons c rest => simpa [readByte] using h c.1
  | cons c rest ih =>
    cases k with
    | nil => simpa [readByte] using h c.1
    | cons d more =>
      obtain ⟨hc, hr⟩ := List.pairwise_cons.mp hm
      obtain ⟨hd, hs⟩ := List.pairwise_cons.mp hk
      have key : c.1 = d.1 := by
        rcases Nat.lt_trichotomy c.1 d.1 with lt | e | gt
        · have hn : readByte (d :: more) c.1 = none :=
            readByte_of_forall_lt fun x hx => by
              rcases List.mem_cons.mp hx with rfl | hx
              · exact lt
              · exact lt.trans (hd x hx)
          have := h c.1
          rw [hn] at this
          simp [readByte] at this
        · exact e
        · have hn : readByte (c :: rest) d.1 = none :=
            readByte_of_forall_lt fun x hx => by
              rcases List.mem_cons.mp hx with rfl | hx
              · exact gt
              · exact Nat.lt_trans gt (hc x hx)
          have := h d.1
          rw [hn] at this
          simp [readByte] at this
      have val : c.2 = d.2 := by
        have := h c.1
        simpa [readByte, key] using this
      have tails : rest = more := by
        refine ih hr hs fun a => ?_
        by_cases e : c.1 = a
        · rw [readByte_of_forall_lt fun x hx => by rw [← e]; exact hc x hx,
            readByte_of_forall_lt fun x hx => by rw [← e, key]; exact hd x hx]
        · have := h a
          simpa [readByte, e, key ▸ e] using this
      rw [tails, Prod.ext key val]

/-! What the decoder reads of the buffer. -/

theorem byteAt_of_written {s : State} {a : Nat} {b : Byte} (h : readByte s.buf a = some b) : s.byteAt a = b := by
  simp [State.byteAt, byteOf, h]

theorem byteAt_of_unwritten {s : State} {a : Nat} (h : readByte s.buf a = none) :
    s.byteAt a = Config.freeByte s.bufSeed a := by
  simp [State.byteAt, byteOf, h]

/-- The read depends on the buffer and the number of resets alone. -/
theorem byteAt_congr {s t : State} (hb : s.buf = t.buf) (hs : s.bufSeed = t.bufSeed) (a : Nat) :
    s.byteAt a = t.byteAt a := by
  simp [State.byteAt, hb, hs]

/-- The host's write is what the decoder reads. -/
theorem byteAt_write (s : State) (a x : Nat) (b : Byte) :
    ({ s with buf := writeByte s.buf a b } : State).byteAt x = if x = a then b else s.byteAt x := by
  by_cases h : x = a <;> simp [State.byteAt, byteOf, readByte_writeByte, h]

/-- Reading after writing consecutive bytes. -/
theorem byteAt_writeBytes (s : State) (a i : Nat) (bs : List Byte) (h : i < bs.length) :
    ({ s with buf := writeBytes s.buf a bs } : State).byteAt (a + i) = bs[i] := by
  apply byteAt_of_written
  simp [readByte_writeBytes, h]

@[simp] theorem bytesFrom_zero (s : State) (a : Nat) : s.bytesFrom a 0 = [] := rfl

theorem bytesFrom_succ (s : State) (a n : Nat) : s.bytesFrom a (n + 1) = s.byteAt a :: s.bytesFrom (a + 1) n := rfl

@[simp] theorem bytesFrom_length (s : State) (a n : Nat) : (s.bytesFrom a n).length = n := by
  induction n generalizing a with
  | zero => rfl
  | succ k ih => simp [bytesFrom_succ, ih]

theorem bytesFrom_getElem? {s : State} {a n i : Nat} (h : i < n) : (s.bytesFrom a n)[i]? = some (s.byteAt (a + i)) := by
  induction n generalizing a i with
  | zero => omega
  | succ k ih =>
    cases i with
    | zero => rfl
    | succ j =>
      rw [bytesFrom_succ, List.getElem?_cons_succ, ih (by omega)]
      congr 2; omega

/-- A run of bytes is known by its bytes. -/
theorem bytesFrom_eq {s : State} {a : Nat} {bs : List Byte} (h : ∀ i (hi : i < bs.length), s.byteAt (a + i) = bs[i]) :
    s.bytesFrom a bs.length = bs := by
  refine List.ext_getElem? fun i => ?_
  by_cases hi : i < bs.length
  · rw [bytesFrom_getElem? hi, h i hi, List.getElem?_eq_getElem hi]
  · rw [List.getElem?_eq_none (by simp; omega), List.getElem?_eq_none (by omega)]

/-- States that agree on the addresses of a run read the same run. -/
theorem bytesFrom_congr {s t : State} {a n : Nat} (h : ∀ x, a ≤ x → x < a + n → s.byteAt x = t.byteAt x) :
    s.bytesFrom a n = t.bytesFrom a n := by
  induction n generalizing a with
  | zero => rfl
  | succ j ih =>
    rw [bytesFrom_succ, bytesFrom_succ, h a (Nat.le_refl a) (by omega), ih fun x h1 h2 => h x (by omega) (by omega)]

theorem bytesFrom_add (s : State) (a n k : Nat) : s.bytesFrom a (n + k) = s.bytesFrom a n ++ s.bytesFrom (a + n) k := by
  induction n generalizing a with
  | zero => simp
  | succ j ih =>
    rw [show j + 1 + k = (j + k) + 1 by omega, bytesFrom_succ, ih, bytesFrom_succ, List.cons_append,
      show a + 1 + j = a + (j + 1) by omega]

end Sys2Proof.Machine
end

