-- ==== Sys2Proof/Laws/Operands.lean ====
section
/-! SUPPORT. The operand forms in plain arithmetic. -/
namespace Sys2Proof.Machine

/-- The mask 0xFE clears bit 0 of a byte and nothing else. -/
theorem and_mask (x : Nat) (h : x < 256) : x &&& 0xFE = x / 2 * 2 := by
  have hd : (x &&& 0xFE) / 2 = x / 2 := by
    rw [Nat.and_div_two, show (0xFE : Nat) / 2 = 2 ^ 7 - 1 from rfl, Nat.and_two_pow_sub_one_eq_mod]
    omega
  have hm : (x &&& 0xFE) % 2 = 0 := by
    rw [Nat.and_mod_two_pow (n := 1)]
    simp
  omega

theorem masked_shift (x k : Nat) (h : x < 256) : (x &&& 0xFE) <<< k = x / 2 * 2 ^ (k + 1) := by
  rw [and_mask x h, Nat.shiftLeft_eq, Nat.pow_succ, Nat.mul_assoc, Nat.mul_comm 2]

theorem or_mul_pow (lo hi k : Nat) (h : lo < 2 ^ k) : lo ||| hi * 2 ^ k = lo + hi * 2 ^ k := by
  rw [Nat.or_comm, Nat.mul_comm, ← Nat.two_pow_add_eq_or_of_lt h, Nat.add_comm]

/-- The four groups as a sum (42_escape_codes R91's equivalent form). -/
theorem u28_eq_sum (b0 b1 b2 b3 : Byte) :
    u28 b0 b1 b2 b3 =
      b0.toNat / 2 + b1.toNat / 2 * 128 + b2.toNat / 2 * 16384 + b3.toNat / 2 * 2097152 := by
  have h0 := b0.isLt
  have h1 := b1.isLt
  have h2 := b2.isLt
  have h3 := b3.isLt
  unfold u28
  rw [masked_shift _ 6 h1, masked_shift _ 13 h2, masked_shift _ 20 h3, Nat.shiftRight_eq_div_pow]
  rw [or_mul_pow _ _ 7 (by omega), or_mul_pow _ _ 14 (by omega), or_mul_pow _ _ 21 (by omega)]
  norm_num

@[simp] theorem packByte_toNat (v : Nat) (r : Bool) : (packByte v r).toNat = v % 128 * 2 + r.toNat := by
  cases r <;> simp [packByte] <;> omega

end Sys2Proof.Machine
end

