-- ==== Sys2Proof/Laws/State.lean ====
section
/-! SUPPORT. What each update of the state leaves in each field, so that no proof unfolds a record update. -/
namespace Sys2Proof.Machine

@[simp] theorem State.advance_status (s : State) (n : Nat) : (s.advance n).status = s.status := rfl
@[simp] theorem State.advance_errKind (s : State) (n : Nat) : (s.advance n).errKind = s.errKind := rfl
@[simp] theorem State.advance_errVal (s : State) (n : Nat) : (s.advance n).errVal = s.errVal := rfl
@[simp] theorem State.advance_len (s : State) (n : Nat) : (s.advance n).len = s.len := rfl
@[simp] theorem State.advance_pc (s : State) (n : Nat) : (s.advance n).pc = s.pc + n := rfl
@[simp] theorem State.advance_acc (s : State) (n : Nat) : (s.advance n).acc = s.acc := rfl
@[simp] theorem State.advance_tsi (s : State) (n : Nat) : (s.advance n).tsi = s.tsi := rfl
@[simp] theorem State.advance_fluxq (s : State) (n : Nat) : (s.advance n).fluxq = s.fluxq := rfl
@[simp] theorem State.advance_indexq (s : State) (n : Nat) : (s.advance n).indexq = s.indexq := rfl
@[simp] theorem State.advance_buf (s : State) (n : Nat) : (s.advance n).buf = s.buf := rfl
@[simp] theorem State.advance_bufSeed (s : State) (n : Nat) : (s.advance n).bufSeed = s.bufSeed := rfl
@[simp] theorem State.advance_byteAt (s : State) (n : Nat) (a : Nat) : (s.advance n).byteAt a = s.byteAt a := rfl
@[simp] theorem State.advance_inbox (s : State) (n : Nat) : (s.advance n).inbox = s.inbox := rfl
@[simp] theorem State.advance_params (s : State) (n : Nat) : (s.advance n).params = s.params := rfl

@[simp] theorem State.raise_status (s : State) (k : ErrKind) (v : Byte) : (s.raise k v).status = .err := rfl
@[simp] theorem State.raise_errKind (s : State) (k : ErrKind) (v : Byte) : (s.raise k v).errKind = k := rfl
@[simp] theorem State.raise_errVal (s : State) (k : ErrKind) (v : Byte) : (s.raise k v).errVal = if k = .unknownOpcode then v else 0 := rfl
@[simp] theorem State.raise_len (s : State) (k : ErrKind) (v : Byte) : (s.raise k v).len = s.len := rfl
@[simp] theorem State.raise_pc (s : State) (k : ErrKind) (v : Byte) : (s.raise k v).pc = s.pc := rfl
@[simp] theorem State.raise_acc (s : State) (k : ErrKind) (v : Byte) : (s.raise k v).acc = s.acc := rfl
@[simp] theorem State.raise_tsi (s : State) (k : ErrKind) (v : Byte) : (s.raise k v).tsi = s.tsi := rfl
@[simp] theorem State.raise_fluxq (s : State) (k : ErrKind) (v : Byte) : (s.raise k v).fluxq = [] := rfl
@[simp] theorem State.raise_indexq (s : State) (k : ErrKind) (v : Byte) : (s.raise k v).indexq = [] := rfl
@[simp] theorem State.raise_buf (s : State) (k : ErrKind) (v : Byte) : (s.raise k v).buf = s.buf := rfl
@[simp] theorem State.raise_bufSeed (s : State) (k : ErrKind) (v : Byte) : (s.raise k v).bufSeed = s.bufSeed := rfl
@[simp] theorem State.raise_byteAt (s : State) (k : ErrKind) (v : Byte) (a : Nat) : (s.raise k v).byteAt a = s.byteAt a := rfl
@[simp] theorem State.raise_inbox (s : State) (k : ErrKind) (v : Byte) : (s.raise k v).inbox = s.inbox := rfl
@[simp] theorem State.raise_params (s : State) (k : ErrKind) (v : Byte) : (s.raise k v).params = s.params := rfl

@[simp] theorem emitFlux_status (s : State) (n : Nat) : (emitFlux n s).status = s.status := rfl
@[simp] theorem emitFlux_errKind (s : State) (n : Nat) : (emitFlux n s).errKind = s.errKind := rfl
@[simp] theorem emitFlux_errVal (s : State) (n : Nat) : (emitFlux n s).errVal = s.errVal := rfl
@[simp] theorem emitFlux_len (s : State) (n : Nat) : (emitFlux n s).len = s.len := rfl
@[simp] theorem emitFlux_pc (s : State) (n : Nat) : (emitFlux n s).pc = s.pc := rfl
@[simp] theorem emitFlux_acc (s : State) (n : Nat) : (emitFlux n s).acc = 0 := rfl
@[simp] theorem emitFlux_tsi (s : State) (n : Nat) : (emitFlux n s).tsi = s.tsi + (s.acc + n : Nat) := rfl
@[simp] theorem emitFlux_fluxq (s : State) (n : Nat) : (emitFlux n s).fluxq = s.fluxq ++ [s.acc + n] := rfl
@[simp] theorem emitFlux_indexq (s : State) (n : Nat) : (emitFlux n s).indexq = s.indexq := rfl
@[simp] theorem emitFlux_buf (s : State) (n : Nat) : (emitFlux n s).buf = s.buf := rfl
@[simp] theorem emitFlux_bufSeed (s : State) (n : Nat) : (emitFlux n s).bufSeed = s.bufSeed := rfl
@[simp] theorem emitFlux_byteAt (s : State) (n : Nat) (a : Nat) : (emitFlux n s).byteAt a = s.byteAt a := rfl
@[simp] theorem emitFlux_inbox (s : State) (n : Nat) : (emitFlux n s).inbox = s.inbox := rfl
@[simp] theorem emitFlux_params (s : State) (n : Nat) : (emitFlux n s).params = s.params := rfl

@[simp] theorem emitIndex_status (s : State) (v : Nat) : (emitIndex v s).status = s.status := rfl
@[simp] theorem emitIndex_errKind (s : State) (v : Nat) : (emitIndex v s).errKind = s.errKind := rfl
@[simp] theorem emitIndex_errVal (s : State) (v : Nat) : (emitIndex v s).errVal = s.errVal := rfl
@[simp] theorem emitIndex_len (s : State) (v : Nat) : (emitIndex v s).len = s.len := rfl
@[simp] theorem emitIndex_pc (s : State) (v : Nat) : (emitIndex v s).pc = s.pc := rfl
@[simp] theorem emitIndex_acc (s : State) (v : Nat) : (emitIndex v s).acc = s.acc := rfl
@[simp] theorem emitIndex_tsi (s : State) (v : Nat) : (emitIndex v s).tsi = -((s.acc : Int) + v) := rfl
@[simp] theorem emitIndex_fluxq (s : State) (v : Nat) : (emitIndex v s).fluxq = s.fluxq := rfl
@[simp] theorem emitIndex_indexq (s : State) (v : Nat) : (emitIndex v s).indexq = s.indexq ++ [s.tsi + s.acc + v] := rfl
@[simp] theorem emitIndex_buf (s : State) (v : Nat) : (emitIndex v s).buf = s.buf := rfl
@[simp] theorem emitIndex_bufSeed (s : State) (v : Nat) : (emitIndex v s).bufSeed = s.bufSeed := rfl
@[simp] theorem emitIndex_byteAt (s : State) (v : Nat) (a : Nat) : (emitIndex v s).byteAt a = s.byteAt a := rfl
@[simp] theorem emitIndex_inbox (s : State) (v : Nat) : (emitIndex v s).inbox = s.inbox := rfl
@[simp] theorem emitIndex_params (s : State) (v : Nat) : (emitIndex v s).params = s.params := rfl

@[simp] theorem addSpace_status (s : State) (v : Nat) : (addSpace v s).status = s.status := rfl
@[simp] theorem addSpace_errKind (s : State) (v : Nat) : (addSpace v s).errKind = s.errKind := rfl
@[simp] theorem addSpace_errVal (s : State) (v : Nat) : (addSpace v s).errVal = s.errVal := rfl
@[simp] theorem addSpace_len (s : State) (v : Nat) : (addSpace v s).len = s.len := rfl
@[simp] theorem addSpace_pc (s : State) (v : Nat) : (addSpace v s).pc = s.pc := rfl
@[simp] theorem addSpace_acc (s : State) (v : Nat) : (addSpace v s).acc = s.acc + v := rfl
@[simp] theorem addSpace_tsi (s : State) (v : Nat) : (addSpace v s).tsi = s.tsi := rfl
@[simp] theorem addSpace_fluxq (s : State) (v : Nat) : (addSpace v s).fluxq = s.fluxq := rfl
@[simp] theorem addSpace_indexq (s : State) (v : Nat) : (addSpace v s).indexq = s.indexq := rfl
@[simp] theorem addSpace_buf (s : State) (v : Nat) : (addSpace v s).buf = s.buf := rfl
@[simp] theorem addSpace_bufSeed (s : State) (v : Nat) : (addSpace v s).bufSeed = s.bufSeed := rfl
@[simp] theorem addSpace_byteAt (s : State) (v : Nat) (a : Nat) : (addSpace v s).byteAt a = s.byteAt a := rfl
@[simp] theorem addSpace_inbox (s : State) (v : Nat) : (addSpace v s).inbox = s.inbox := rfl
@[simp] theorem addSpace_params (s : State) (v : Nat) : (addSpace v s).params = s.params := rfl

@[simp] theorem State.reinit_status (s : State) : s.reinit.status = s.status := rfl
@[simp] theorem State.reinit_errKind (s : State) : s.reinit.errKind = .none := rfl
@[simp] theorem State.reinit_errVal (s : State) : s.reinit.errVal = 0 := rfl
@[simp] theorem State.reinit_len (s : State) : s.reinit.len = s.len := rfl
@[simp] theorem State.reinit_pc (s : State) : s.reinit.pc = 0 := rfl
@[simp] theorem State.reinit_acc (s : State) : s.reinit.acc = 0 := rfl
@[simp] theorem State.reinit_tsi (s : State) : s.reinit.tsi = 0 := rfl
@[simp] theorem State.reinit_fluxq (s : State) : s.reinit.fluxq = [] := rfl
@[simp] theorem State.reinit_indexq (s : State) : s.reinit.indexq = [] := rfl
@[simp] theorem State.reinit_buf (s : State) : s.reinit.buf = s.buf := rfl
@[simp] theorem State.reinit_bufSeed (s : State) : s.reinit.bufSeed = s.bufSeed := rfl
@[simp] theorem State.reinit_byteAt (s : State) (a : Nat) : s.reinit.byteAt a = s.byteAt a := rfl
@[simp] theorem State.reinit_inbox (s : State) : s.reinit.inbox = s.inbox := rfl
@[simp] theorem State.reinit_params (s : State) : s.reinit.params = s.params := rfl

@[simp] theorem State.finish_status (s : State) : s.finish.status = .done := rfl
@[simp] theorem State.finish_errKind (s : State) : s.finish.errKind = s.errKind := rfl
@[simp] theorem State.finish_errVal (s : State) : s.finish.errVal = s.errVal := rfl
@[simp] theorem State.finish_len (s : State) : s.finish.len = s.len := rfl
@[simp] theorem State.finish_pc (s : State) : s.finish.pc = s.pc := rfl
@[simp] theorem State.finish_acc (s : State) : s.finish.acc = s.acc := rfl
@[simp] theorem State.finish_tsi (s : State) : s.finish.tsi = s.tsi := rfl
@[simp] theorem State.finish_fluxq (s : State) : s.finish.fluxq = s.fluxq := rfl
@[simp] theorem State.finish_indexq (s : State) : s.finish.indexq = s.indexq := rfl
@[simp] theorem State.finish_buf (s : State) : s.finish.buf = s.buf := rfl
@[simp] theorem State.finish_bufSeed (s : State) : s.finish.bufSeed = s.bufSeed := rfl
@[simp] theorem State.finish_byteAt (s : State) (a : Nat) : s.finish.byteAt a = s.byteAt a := rfl
@[simp] theorem State.finish_inbox (s : State) : s.finish.inbox = s.inbox := rfl
@[simp] theorem State.finish_params (s : State) : s.finish.params = s.params := rfl

@[simp] theorem State.hostReset_status (s : State) : s.hostReset.status = .idle := rfl
@[simp] theorem State.hostReset_errKind (s : State) : s.hostReset.errKind = .none := rfl
@[simp] theorem State.hostReset_errVal (s : State) : s.hostReset.errVal = 0 := rfl
@[simp] theorem State.hostReset_len (s : State) : s.hostReset.len = 0 := rfl
@[simp] theorem State.hostReset_pc (s : State) : s.hostReset.pc = 0 := rfl
@[simp] theorem State.hostReset_acc (s : State) : s.hostReset.acc = 0 := rfl
@[simp] theorem State.hostReset_tsi (s : State) : s.hostReset.tsi = 0 := rfl
@[simp] theorem State.hostReset_fluxq (s : State) : s.hostReset.fluxq = [] := rfl
@[simp] theorem State.hostReset_indexq (s : State) : s.hostReset.indexq = [] := rfl
@[simp] theorem State.hostReset_buf (s : State) : s.hostReset.buf = [] := rfl
@[simp] theorem State.hostReset_bufSeed (s : State) : s.hostReset.bufSeed = s.bufSeed + 1 := rfl
@[simp] theorem State.hostReset_inbox (s : State) : s.hostReset.inbox = s.inbox := rfl
@[simp] theorem State.hostReset_params (s : State) : s.hostReset.params = s.params := rfl

end Sys2Proof.Machine
end

