-- ==== Sys2Proof/Laws/Ops.lean ====
section
/-! SUPPORT. One lemma per shared operation and per meaning that says once when it answers a next state, and
which. -/
namespace Sys2Proof.Machine

@[simp] theorem natFits_none (v : Nat) : natFits none v = true := rfl
@[simp] theorem intFits_none (v : Int) : intFits none v = true := rfl
@[simp] theorem hasRoom_none (n : Nat) : hasRoom none n = true := rfl
@[simp] theorem lenFits_none (n : Nat) : lenFits none n = true := rfl

theorem natFits_some {b v : Nat} : natFits (some b) v = true ↔ v < 2 ^ b := by simp [natFits]
theorem intFits_some {b : Nat} {v : Int} :
    intFits (some b) v = true ↔ -(2 ^ b : Int) ≤ 2 * v ∧ 2 * v < 2 ^ b := by simp [intFits]
theorem hasRoom_some {c n : Nat} : hasRoom (some c) n = true ↔ n < c := by simp [hasRoom]

/-- 0 fits every width. -/
theorem natFits_zero (w : Option Nat) : natFits w 0 = true := by
  cases w <;> simp [natFits]

theorem intFits_zero (w : Option Nat) : intFits w 0 = true := by
  cases w <;> simp [intFits]

theorem commit_eq_next {fits : Bool} {t u : State} : commit fits t = .next u ↔ fits = true ∧ t = u := by
  unfold commit; split <;> simp_all

theorem commit_ne_fault {fits : Bool} {t : State} {f : Fault} : commit fits t ≠ .fault f := by
  unfold commit; split <;> simp

/-- Everything the shared length test can do. -/
theorem needBytes_eq_next {n : Nat} {s t : State} {e : Result} :
    needBytes n s e = .next t ↔
      AtByteCode s ∧ (s.remaining < n ∧ t = s.raise .unexpectedEndOfStream 0 ∨ n ≤ s.remaining ∧ e = .next t) := by
  unfold needBytes
  by_cases h1 : s.status = .run
  · by_cases h2 : s.len ≤ s.pc + 1
    · have h2' : ¬ s.pc + 1 < s.len := by omega
      simp [h1, h2, h2', AtByteCode]
    · have hA : AtByteCode s := ⟨h1, by omega⟩
      by_cases h3 : s.remaining < n
      · have h3' : ¬ n ≤ s.remaining := by omega
        simp only [h1, h2, h3, h3', if_true, if_false, ne_eq, not_true_eq_false, Host.Outcome.next.injEq,
          true_and, false_and, or_false, eq_comm (a := t)]
        exact (and_iff_right hA).symm
      · have h3' : n ≤ s.remaining := by omega
        simp only [h1, h2, h3, h3', if_false, ne_eq, not_true_eq_false, true_and, false_and, false_or]
        exact (and_iff_right hA).symm
  · simp [h1, AtByteCode]

/-- Where a byte-code is dispatched and its bytes are there, the length test passes. -/
theorem needBytes_pass {n : Nat} {s : State} {e : Result} (h : AtByteCode s) (hn : n ≤ s.remaining) :
    needBytes n s e = e := by
  have h2 : ¬ s.len ≤ s.pc + 1 := by have := h.2; omega
  have h3 : ¬ s.remaining < n := by omega
  simp [needBytes, h.1, h2, h3]

/-- Where a byte-code is dispatched and its bytes are not there, UnexpectedEndOfStream is taken. -/
theorem needBytes_truncated {n : Nat} {s : State} {e : Result} (h : AtByteCode s) (hn : s.remaining < n) :
    needBytes n s e = .next (s.raise .unexpectedEndOfStream 0) := by
  have h2 : ¬ s.len ≤ s.pc + 1 := by have := h.2; omega
  simp [needBytes, h.1, h2, hn]

theorem remaining_pos {s : State} (h : AtByteCode s) : 1 ≤ s.remaining := by
  have := h.2; unfold State.remaining; omega

theorem execFlux1_eq_next {b : Byte} {s t : State} :
    execFlux1 b s = .next t ↔
      AtByteCode s ∧ emitFluxFits (flux1Imm b) s = true ∧ t = (emitFlux (flux1Imm b) s).advance 1 := by
  rw [execFlux1, needBytes_eq_next, commit_eq_next]
  constructor
  · rintro ⟨h, ⟨h1, -⟩ | ⟨-, h2, h3⟩⟩
    · have := remaining_pos h; omega
    · exact ⟨h, h2, h3.symm⟩
  · rintro ⟨h, h2, h3⟩
    exact ⟨h, .inr ⟨remaining_pos h, h2, h3.symm⟩⟩

theorem execFlux2_eq_next {b e : Byte} {s t : State} :
    execFlux2 b e s = .next t ↔
      AtByteCode s ∧ (s.remaining < 2 ∧ t = s.raise .unexpectedEndOfStream 0 ∨
        2 ≤ s.remaining ∧ emitFluxFits (flux2Imm b e) s = true ∧ t = (emitFlux (flux2Imm b e) s).advance 2) := by
  rw [execFlux2, needBytes_eq_next, commit_eq_next, eq_comm (b := t)]

theorem execIndex_eq_next {b0 b1 b2 b3 : Byte} {s t : State} :
    execIndex b0 b1 b2 b3 s = .next t ↔
      AtByteCode s ∧ (s.remaining < 6 ∧ t = s.raise .unexpectedEndOfStream 0 ∨
        6 ≤ s.remaining ∧ emitIndexFits (u28 b0 b1 b2 b3) s = true
          ∧ t = (emitIndex (u28 b0 b1 b2 b3) s).advance 6) := by
  rw [execIndex, needBytes_eq_next, commit_eq_next, eq_comm (b := t)]

theorem execSpace_eq_next {b0 b1 b2 b3 : Byte} {s t : State} :
    execSpace b0 b1 b2 b3 s = .next t ↔
      AtByteCode s ∧ (s.remaining < 6 ∧ t = s.raise .unexpectedEndOfStream 0 ∨
        6 ≤ s.remaining ∧ addSpaceFits (u28 b0 b1 b2 b3) s = true
          ∧ t = (addSpace (u28 b0 b1 b2 b3) s).advance 6) := by
  rw [execSpace, needBytes_eq_next, commit_eq_next, eq_comm (b := t)]

theorem execReservedEscape0_eq_next {s t : State} :
    execReservedEscape0 s = .next t ↔
      AtByteCode s ∧ (s.remaining < 2 ∧ t = s.raise .unexpectedEndOfStream 0 ∨
        2 ≤ s.remaining ∧ t = s.raise .unknownOpcode 0) := by
  rw [execReservedEscape0, needBytes_eq_next, Host.Outcome.next.injEq, eq_comm (b := t)]

theorem execReservedEscape_eq_next {op : Byte} {s t : State} :
    execReservedEscape op s = .next t ↔
      AtByteCode s ∧ (s.remaining < 2 ∧ t = s.raise .unexpectedEndOfStream 0 ∨
        2 ≤ s.remaining ∧ t = s.raise .unknownOpcode op) := by
  rw [execReservedEscape, needBytes_eq_next, Host.Outcome.next.injEq, eq_comm (b := t)]

theorem execEndOfStream_eq_next {s t : State} :
    execEndOfStream s = .next t ↔ AtSentinel s ∧ t = s.finish := by
  unfold execEndOfStream
  by_cases h1 : s.status = .run <;> by_cases h2 : s.pc + 1 = s.len <;>
    simp [h1, h2, AtSentinel, eq_comm (a := t)]

/-- Everything START can answer as a next state. -/
theorem start_eq_next {s t : State} :
    start s = .next t ↔
      lenFits s.params.lenMax s.len = true ∧
        ((s.len = 0 ∨ s.byteAt (s.len - 1) ≠ 0) ∧ t = s.reinit.raise .malformedBuffer 0 ∨
          s.len ≠ 0 ∧ s.byteAt (s.len - 1) = 0 ∧ t = { s.reinit with status := .run }) := by
  unfold start
  cases hl : lenFits s.params.lenMax s.len with
  | false => simp
  | true =>
    by_cases h0 : s.len = 0
    · simp [h0, eq_comm (a := t)]
    · by_cases hb : s.byteAt (s.len - 1) = 0
      · simp [h0, hb, Config.sentinel, eq_comm (a := t)]
      · have hb' : ¬ s.byteAt (s.len - 1) = 0#8 := hb
        simp [h0, hb', Config.sentinel, eq_comm (a := t)]

end Sys2Proof.Machine
end

