-- ==== Sys2Proof/Laws/PerInstr.lean ====
section
/-! SUPPORT. Statements for all instructions, one lemma per constructor: the encoding of a row has the length the
table gives it, and the row's lead byte lies in the range the table gives it (30_encoding R54, R56). -/
namespace Sys2Proof.Laws

/-- The range of lead bytes the table gives the row; for the sentinel, its one byte 0 (30_encoding R54, R64). -/
def LeadRange (i : Instr) (b : Byte) : Prop :=
  match i with
  | .flux1 _ => b.toNat ≤ 249
  | .flux2 _ _ => 250 ≤ b.toNat ∧ b.toNat ≤ 254
  | .index _ _ _ _ => b.toNat = 255
  | .space _ _ _ _ => b.toNat = 255
  | .reservedEscape0 => b.toNat = 255
  | .reservedEscape _ => b.toNat = 255
  | .endOfStream => b.toNat = 0

/-- A well-formed instruction is encoded in `byteLength` bytes whose first is in its row's range. -/
def EncodedShape.Statement (i : Instr) : Prop :=
  WellFormed i → (encode i).length = byteLength i ∧ ∃ b tail, encode i = b :: tail ∧ LeadRange i b

theorem EncodedShape.flux1 (b : Byte) : EncodedShape.Statement (.flux1 b) :=
  fun h => ⟨rfl, b, [], rfl, h⟩

theorem EncodedShape.flux2 (b e : Byte) : EncodedShape.Statement (.flux2 b e) :=
  fun h => ⟨rfl, b, [e], rfl, h⟩

theorem EncodedShape.index (b0 b1 b2 b3 : Byte) : EncodedShape.Statement (.index b0 b1 b2 b3) :=
  fun _ => ⟨rfl, Config.escape, [Config.opIndex, b0, b1, b2, b3], rfl, rfl⟩

theorem EncodedShape.space (b0 b1 b2 b3 : Byte) : EncodedShape.Statement (.space b0 b1 b2 b3) :=
  fun _ => ⟨rfl, Config.escape, [Config.opSpace, b0, b1, b2, b3], rfl, rfl⟩

theorem EncodedShape.reservedEscape0 : EncodedShape.Statement .reservedEscape0 :=
  fun _ => ⟨rfl, Config.escape, [0], rfl, rfl⟩

theorem EncodedShape.reservedEscape (op : Byte) : EncodedShape.Statement (.reservedEscape op) :=
  fun _ => ⟨rfl, Config.escape, [op], rfl, rfl⟩

theorem EncodedShape.endOfStream : EncodedShape.Statement .endOfStream :=
  fun _ => ⟨rfl, Config.sentinel, [], rfl, rfl⟩

end Sys2Proof.Laws
end

