-- ==== Sys2Proof/Laws/Step.lean ====
section
/-! SUPPORT. What one step can do, whose move it is first. -/
namespace Sys2Proof.Machine

theorem step_host {s : State} {a : HostAction} {rest : List HostAction} (h : s.inbox = a :: rest) :
    step s = serveHost a { s with inbox := rest } := by
  simp [step, oneMove, h]

theorem step_decoder {s : State} (h : s.inbox = []) : step s = decoderStep s := by
  simp [step, oneMove, h]

/-- Outside `RUN` the decoder waits (40_start_dispatch_end R70). -/
theorem decoderStep_waits {s : State} (h : s.status ≠ .run) : decoderStep s = .next s := by
  unfold decoderStep
  split
  · next e => exact absurd e h
  all_goals rfl

/-- In `RUN` the decoder does what the fetch says. -/
theorem decoderStep_run {s : State} (h : s.status = .run) :
    decoderStep s =
      match fetch s with
      | .ok i => exec i s
      | .error .truncated => .next (s.raise .unexpectedEndOfStream 0)
      | .error .noByteCode => .fault .noByteCodeHere := by
  cases hf : fetch s with
  | ok i => simp [decoderStep, h, hf]
  | error e => cases e <;> simp [decoderStep, h, hf]

theorem fetch_eq_ok {s : State} {i : Instr} :
    fetch s = .ok i ↔ s.pc < s.len ∧ decode s.remaining s.window = .ok i := by
  unfold fetch
  by_cases h : s.len ≤ s.pc
  · simp only [h, if_true, reduceCtorEq, false_iff]; omega
  · have h' : s.pc < s.len := by omega
    cases hd : decode s.remaining s.window with
    | ok j => simp [h, h']
    | error e => cases e <;> simp [h]

theorem fetch_eq_truncated {s : State} :
    fetch s = .error .truncated ↔ s.pc < s.len ∧ decode s.remaining s.window = .error .truncated := by
  unfold fetch
  by_cases h : s.len ≤ s.pc
  · simp only [h, if_true, Except.error.injEq, reduceCtorEq, false_iff]; omega
  · have h' : s.pc < s.len := by omega
    cases hd : decode s.remaining s.window with
    | ok j => simp [h]
    | error e => cases e <;> simp [h, h']

theorem fetch_eq_noByteCode {s : State} : fetch s = .error .noByteCode ↔ s.len ≤ s.pc := by
  unfold fetch
  by_cases h : s.len ≤ s.pc
  · simp [h]
  · cases hd : decode s.remaining s.window with
    | ok j => simp [h]
    | error e =>
      cases e
      · simp [h]
      · exact absurd hd (decode_ne_bytesMissing (by simp [State.window]))

/-- A byte-code at or before the sentinel is fetched or cut off; no byte is ever missing. -/
theorem fetch_cases {s : State} (h : s.pc < s.len) : (∃ i, fetch s = .ok i) ∨ fetch s = .error .truncated := by
  cases hf : fetch s with
  | ok i => exact .inl ⟨i, rfl⟩
  | error e =>
    cases e
    · have := fetch_eq_noByteCode.mp hf; omega
    · exact .inr rfl

/-- Everything the decoder's move can answer as a next state. -/
theorem decoderStep_cases {s t : State} (h : decoderStep s = .next t) :
    (s.status ≠ .run ∧ t = s) ∨
      (s.status = .run ∧ ∃ i, fetch s = .ok i ∧ exec i s = .next t) ∨
      (s.status = .run ∧ fetch s = .error .truncated ∧ t = s.raise .unexpectedEndOfStream 0) := by
  by_cases hr : s.status = .run
  · rw [decoderStep_run hr] at h
    split at h
    · next i e => exact .inr (.inl ⟨hr, i, e, h⟩)
    · next e => exact .inr (.inr ⟨hr, e, by simpa using h.symm⟩)
    · simp at h
  · rw [decoderStep_waits hr] at h
    exact .inl ⟨hr, by simpa using h.symm⟩

/-- Everything a move of the host can answer as a next state. -/
theorem serveHost_cases {a : HostAction} {s t : State} (h : serveHost a s = .next t) :
    (s.status ≠ .run ∧ ∃ x b, a = .writeBuf x b ∧ t = { s with buf := writeByte s.buf x b }) ∨
      (s.status ≠ .run ∧ ∃ n, a = .writeLen n ∧ t = { s with len := n }) ∨
      (s.status ≠ .run ∧ a = .start ∧ start s = .next t) ∨
      ((a = .readStatus ∨ a = .readQueues ∧ s.status ≠ .run) ∧ t = s) ∨
      (a = .reset ∧ t = s.hostReset) ∨
      (a = .wait ∧ decoderStep s = .next t) := by
  cases a <;> simp only [serveHost] at h
  case writeBuf x b =>
    split at h
    · simp at h
    · next hr => exact .inl ⟨hr, x, b, rfl, by simpa using h.symm⟩
  case writeLen n =>
    split at h
    · simp at h
    · next hr => exact .inr (.inl ⟨hr, n, rfl, by simpa using h.symm⟩)
  case start =>
    split at h
    · simp at h
    · next hr => exact .inr (.inr (.inl ⟨hr, rfl, h⟩))
  case readStatus => exact .inr (.inr (.inr (.inl ⟨.inl rfl, by simpa using h.symm⟩)))
  case readQueues =>
    split at h
    · simp at h
    · next hr => exact .inr (.inr (.inr (.inl ⟨.inr ⟨rfl, hr⟩, by simpa using h.symm⟩)))
  case reset => exact .inr (.inr (.inr (.inr (.inl ⟨rfl, by simpa using h.symm⟩))))
  case wait => exact .inr (.inr (.inr (.inr (.inr ⟨rfl, h⟩))))

end Sys2Proof.Machine
end

