-- ==== Sys2Proof/Laws/Reference.lean ====
section
/-! SUPPORT. The reference loop, one equation per form of the grammar, and how runs of steps unfold. -/
namespace Sys2Proof.Machine

section
variable {b c b0 b1 b2 b3 : Byte} {tl : List Byte} {acc : Nat} {tsi : Int} {flux : List Nat} {index : List Int}

@[simp] theorem decodeLoop_nil : decodeLoop [] acc tsi flux index = .ok flux index := by
  unfold decodeLoop; rfl

theorem decodeLoop_flux1 (hb : b.toNat ≤ 249) :
    decodeLoop (b :: tl) acc tsi flux index =
      decodeLoop tl 0 (tsi + (acc + b.toNat : Nat)) (flux ++ [acc + b.toNat]) index := by
  rw [decodeLoop.eq_def]; simp only [hb, if_true]

theorem decodeLoop_truncated_lead (hb : 250 ≤ b.toNat) :
    decodeLoop [b] acc tsi flux index = .err .unexpectedEndOfStream 0 := by
  have h : ¬ b.toNat ≤ 249 := by omega
  rw [decodeLoop.eq_def]; simp only [h, if_false]

theorem decodeLoop_flux2 (h1 : 250 ≤ b.toNat) (h2 : b.toNat ≤ 254) :
    decodeLoop (b :: c :: tl) acc tsi flux index =
      decodeLoop tl 0 (tsi + (acc + flux2Imm b c : Nat)) (flux ++ [acc + flux2Imm b c]) index := by
  have h : ¬ b.toNat ≤ 249 := by omega
  have e : acc + 250 + (b.toNat - 250) * 255 + c.toNat - 1 = acc + flux2Imm b c := by unfold flux2Imm; omega
  rw [decodeLoop.eq_def]; simp only [h, h2, if_true, if_false, e]

theorem decodeLoop_unknown (hb : b.toNat = 255) (h1 : c ≠ 1) (h2 : c ≠ 2) :
    decodeLoop (b :: c :: tl) acc tsi flux index = .err .unknownOpcode c := by
  have h3 : ¬ b.toNat ≤ 249 := by omega
  have h4 : ¬ b.toNat ≤ 254 := by omega
  rw [decodeLoop.eq_def]
  simp only [h3, h4, if_false, if_pos (And.intro h1 h2)]

theorem decodeLoop_index (hb : b.toNat = 255) :
    decodeLoop (b :: 1 :: b0 :: b1 :: b2 :: b3 :: tl) acc tsi flux index =
      decodeLoop tl acc (-((acc : Int) + u28 b0 b1 b2 b3)) flux (index ++ [tsi + acc + u28 b0 b1 b2 b3]) := by
  have h3 : ¬ b.toNat ≤ 249 := by omega
  have h4 : ¬ b.toNat ≤ 254 := by omega
  rw [decodeLoop.eq_def]
  simp only [h3, h4, if_false, ne_eq, not_true_eq_false, false_and, if_true, u28]

theorem decodeLoop_space (hb : b.toNat = 255) :
    decodeLoop (b :: 2 :: b0 :: b1 :: b2 :: b3 :: tl) acc tsi flux index =
      decodeLoop tl (acc + u28 b0 b1 b2 b3) tsi flux index := by
  have h3 : ¬ b.toNat ≤ 249 := by omega
  have h4 : ¬ b.toNat ≤ 254 := by omega
  have h5 : ¬ (2 : Byte) = 1 := by decide
  rw [decodeLoop.eq_def]
  simp only [h3, h4, h5, if_false, ne_eq, not_true_eq_false, and_false, u28]

theorem decodeLoop_truncated_operands (hb : b.toNat = 255) (hc : c = 1 ∨ c = 2) (hl : tl.length < 4) :
    decodeLoop (b :: c :: tl) acc tsi flux index = .err .unexpectedEndOfStream 0 := by
  have h3 : ¬ b.toNat ≤ 249 := by omega
  have h4 : ¬ b.toNat ≤ 254 := by omega
  have h5 : ¬ (c ≠ 1 ∧ c ≠ 2) := by
    rcases hc with rfl | rfl <;> decide
  rw [decodeLoop.eq_def]
  simp only [h3, h4, h5, if_false]
  split
  · simp only [List.length_cons] at hl; omega
  · rfl

/-- Every list of prefix bytes has one of the forms of the grammar. -/
theorem prefix_cases (bytes : List Byte) :
    bytes = [] ∨ (∃ b tl, bytes = b :: tl ∧ b.toNat ≤ 249) ∨ (∃ b, bytes = [b] ∧ 250 ≤ b.toNat) ∨
      (∃ b c tl, bytes = b :: c :: tl ∧ 250 ≤ b.toNat ∧ b.toNat ≤ 254) ∨
      (∃ c tl, bytes = 255 :: c :: tl ∧ c ≠ 1 ∧ c ≠ 2) ∨
      (∃ b0 b1 b2 b3 tl, bytes = 255 :: 1 :: b0 :: b1 :: b2 :: b3 :: tl) ∨
      (∃ b0 b1 b2 b3 tl, bytes = 255 :: 2 :: b0 :: b1 :: b2 :: b3 :: tl) ∨
      (∃ c tl, bytes = 255 :: c :: tl ∧ (c = 1 ∨ c = 2) ∧ tl.length < 4) := by
  match bytes with
  | [] => exact .inl rfl
  | b :: tl =>
    by_cases h1 : b.toNat ≤ 249
    · exact .inr (.inl ⟨b, tl, rfl, h1⟩)
    · match tl with
      | [] => exact .inr (.inr (.inl ⟨b, rfl, by omega⟩))
      | c :: tl =>
        by_cases h2 : b.toNat ≤ 254
        · exact .inr (.inr (.inr (.inl ⟨b, c, tl, rfl, by omega, h2⟩)))
        · have hb : b = 255 := BitVec.eq_of_toNat_eq (by have := b.isLt; simp; omega)
          subst hb
          by_cases hc : c = 1 ∨ c = 2
          · match tl with
            | b0 :: b1 :: b2 :: b3 :: tl =>
              rcases hc with rfl | rfl
              · exact .inr (.inr (.inr (.inr (.inr (.inl ⟨b0, b1, b2, b3, tl, rfl⟩)))))
              · exact .inr (.inr (.inr (.inr (.inr (.inr (.inl ⟨b0, b1, b2, b3, tl, rfl⟩))))))
            | [] => exact .inr (.inr (.inr (.inr (.inr (.inr (.inr ⟨c, _, rfl, hc, by simp⟩))))))
            | [_] => exact .inr (.inr (.inr (.inr (.inr (.inr (.inr ⟨c, _, rfl, hc, by simp⟩))))))
            | [_, _] => exact .inr (.inr (.inr (.inr (.inr (.inr (.inr ⟨c, _, rfl, hc, by simp⟩))))))
            | [_, _, _] => exact .inr (.inr (.inr (.inr (.inr (.inr (.inr ⟨c, _, rfl, hc, by simp⟩))))))
          · exact .inr (.inr (.inr (.inr (.inl ⟨c, tl, rfl, fun e => hc (.inl e), fun e => hc (.inr e)⟩))))

end

/-- One step of a run, for any machine. -/
theorem core_run_succ {M : Host.Core} {k : Nat} {s t : M.State} (h : M.step s = .next t) :
    M.run (k + 1) s = M.run k t := by
  rw [Host.Core.run, h]

/-- One step of a run. -/
theorem run_succ {k : Nat} {s t : State} (h : step s = .next t) :
    Host.Core.run Sys2Proof.core (k + 1) s = Host.Core.run Sys2Proof.core k t :=
  core_run_succ (M := Sys2Proof.core) h

/-- A decode that has ended stays ended while the host makes no move. -/
theorem run_ended (k : Nat) {t : State} (hi : t.inbox = []) (hr : t.status ≠ .run) :
    Host.Core.run Sys2Proof.core k t = .next t := by
  induction k with
  | zero => rfl
  | succ k ih => exact (run_succ (by rw [step_decoder hi, decoderStep_waits hr])).trans ih

end Sys2Proof.Machine
end

