-- ==== Sys2Proof/Tests/Slice0.lean ====
section
/-! SUPPORT. Tests. Expected values are those of spec/95_test_vectors.md or worked out by hand from the rule named;
after them, for every obligation with hypotheses, a state and operands that meet them, one per clause. -/
namespace Sys2Proof.Tests
open Sys2Proof Sys2Proof.Machine

/-- A decode in progress at the first byte of `bs`, sentinel included. -/
def running (bs : List Byte) : State :=
  { State.reset with buf := writeBytes [] 0 bs, len := bs.length, status := .run }

/-- The same buffer before START, the host's moves `moves` pending. -/
def waiting (bs : List Byte) (moves : List HostAction) : State :=
  { running bs with status := .idle, inbox := moves }

/-- The same decode with finite parameters. -/
def narrow (bs : List Byte) : State :=
  { running bs with
    params := { accBits := some 8, tsiBits := some 8, lenMax := some 8, fluxqCap := some 1, indexqCap := some 1 } }

/-- The outcome is a next state of which `p` holds. -/
def yields (r : Result) (p : State → Bool) : Bool :=
  match r with
  | .next t => p t
  | .fault _ => false
  | .refused _ => false

/-- The outcome is this fault. -/
def faultsWith (r : Result) (f : Fault) : Bool :=
  match r with
  | .next _ => false
  | .fault g => decide (g = f)
  | .refused _ => false

/-- The outcome is this refusal. -/
def refusedWith (r : Result) (x : Refusal) : Bool :=
  match r with
  | .next _ => false
  | .fault _ => false
  | .refused y => decide (y = x)

/-! ### WellFormed refuses each ill-formed field -/

theorem test_illFormed_flux1 : wellFormed (.flux1 250) = false := by decide
theorem test_illFormed_flux2_low : wellFormed (.flux2 249 0) = false := by decide
theorem test_illFormed_flux2_high : wellFormed (.flux2 255 0) = false := by decide
theorem test_illFormed_reserved : wellFormed (.reservedEscape 2) = false := by decide
theorem test_wellFormed_bounds :
    (wellFormed (.flux1 249) && wellFormed (.flux2 250 0) && wellFormed (.flux2 254 255)
      && wellFormed (.reservedEscape 3) && wellFormed (.reservedEscape 255)) = true := by decide

/-- The test that runs says what the proposition says. -/
theorem wellFormed_iff (i : Instr) : wellFormed i = true ↔ WellFormed i := by
  cases i <;> simp [wellFormed]

/-! ### Words written out bit by bit (30_encoding R51-R56, R61, R62) -/

theorem test_decode_flux1 : decode 1 [0b11111001] = .ok (.flux1 249) := by decide
theorem test_decode_flux1_zero : decode 1 [0b00000000] = .ok (.flux1 0) := by decide
theorem test_decode_flux2 : decode 2 [0b11111010, 0b00110011] = .ok (.flux2 0xFA 0x33) := by decide
theorem test_decode_flux2_last : decode 2 [0b11111110, 0b11111111] = .ok (.flux2 0xFE 0xFF) := by decide
theorem test_decode_index :
    decode 6 [0b11111111, 0b00000001, 0b00001010, 0b00000001, 0b11111111, 0b10000000]
      = .ok (.index 0x0A 0x01 0xFF 0x80) := by decide
theorem test_decode_space :
    decode 6 [0b11111111, 0b00000010, 0b11010000, 0b00001110, 0b00000000, 0b00000000]
      = .ok (.space 0xD0 0x0E 0x00 0x00) := by decide
theorem test_decode_reserved0 : decode 2 [0b11111111, 0b00000000] = .ok .reservedEscape0 := by decide
theorem test_decode_reserved3 : decode 2 [0b11111111, 0b00000011] = .ok (.reservedEscape 3) := by decide
theorem test_decode_reserved255 : decode 2 [0b11111111, 0b11111111] = .ok (.reservedEscape 255) := by decide
theorem test_decode_end : decode 0 [0b00000000] = .ok .endOfStream := by decide
theorem test_decode_truncated_extra : decode 1 [0xFE, 0x00] = .error .truncated := by decide
theorem test_decode_truncated_operands : decode 5 [0xFF, 0x02, 0, 0, 0, 0] = .error .truncated := by decide

/-- The table's numbering of an escape row: first byte leftmost (30_encoding R67, log entry 6). -/
theorem test_tableWord_index : decodeTableWord 16 0xFF01 = some (.index 0 0 0 0) := by decide
theorem test_tableWord_flux2 : decodeTableWord 16 0xFFFA = some (.flux2 0xFA 0xFF) := by decide

/-- The placed word is what the next step runs, from reset. -/
theorem test_withFetchWord :
    yields (step (State.reset.withFetchWord 48 0x0AFF02FF)) (fun t => decide (t.acc = 127 + 5 * 128 ∧ t.pc = 6)) = true
      ∧ yields (step (State.reset.withFetchWord 48 0x0A02FF)) (fun t => decide (t.acc = 5 ∧ t.pc = 6)) = true
      ∧ yields (step (State.reset.withFetchWord 8 0xF9)) (fun t => decide (t.fluxq = [249] ∧ t.pc = 1)) = true := by
  decide

/-! ### The operand forms (spec/95_test_vectors.md) -/

theorem test_u28_V64 : u28 0x12 0x34 0x56 0x78 = 126536969 := by decide
theorem test_u28_V65 : u28 0xAB 0xCD 0xEF 0x01 = 1962837 := by decide
theorem test_p28_V81 : p28 12345678 = [0x9C, 0x84, 0xE2, 0x0A] := by decide
theorem test_p28r_V75 : p28r 1000 true true true true = [0xD1, 0x0F, 0x01, 0x01] := by decide
theorem test_flux2Imm_V29 : flux2Imm 252 128 = 887 := by decide
theorem test_assemble_P2 :
    assemble (fluxStmts 2000) = some [0xFF, 0x02, 0xAE, 0x1A, 0x00, 0x00, 0xF9] := by decide

/-! ### One step of each instruction -/

/-- R82's worked example. -/
theorem test_flux1_R82 :
    yields (step (running [5, 0])) (fun t =>
      decide (t.fluxq = [5] ∧ t.tsi = 5 ∧ t.acc = 0 ∧ t.pc = 1 ∧ t.status = .run)) = true := by decide
/-- V97: the ticks a SPACE left in ACC are emitted and all of them are added to TSI (R81). -/
theorem test_flux1_V97 :
    yields (step { running [255, 2, 20, 0, 0, 0, 3, 0] with pc := 6, acc := 10 }) (fun t =>
      decide (t.fluxq = [13] ∧ t.tsi = 13 ∧ t.acc = 0 ∧ t.pc = 7)) = true := by decide
/-- V34: the largest immediate. -/
theorem test_flux2_V34 :
    yields (step (running [254, 255, 0])) (fun t =>
      decide (t.fluxq = [1524] ∧ t.tsi = 1524 ∧ t.pc = 2)) = true := by decide
/-- V37: the extra byte is missing; what was staged is discarded, the registers stay. -/
theorem test_flux2_V37 :
    yields (step { running [1, 251, 0] with pc := 1, fluxq := [1], tsi := 1 }) (fun t =>
      decide (t.status = .err ∧ t.errKind = .unexpectedEndOfStream ∧ t.errVal = 0 ∧ t.fluxq = [] ∧ t.pc = 1
        ∧ t.tsi = 1)) = true := by decide
/-- V93's second INDEX: ACC counts and is kept. -/
theorem test_index_V93 :
    yields (step { running [255, 1, 6, 0, 0, 0, 3, 0] with acc := 14, tsi := -15, indexq := [15] }) (fun t =>
      decide (t.indexq = [15, 2] ∧ t.tsi = -17 ∧ t.acc = 14 ∧ t.pc = 6 ∧ t.fluxq = [])) = true := by decide
/-- V94: three operand bytes before the sentinel. -/
theorem test_index_V94 :
    yields (step (running [255, 1, 0, 0, 0, 0])) (fun t =>
      decide (t.errKind = .unexpectedEndOfStream ∧ t.indexq = [])) = true := by decide
/-- V75 and V39's first step. -/
theorem test_space_V39 :
    yields (step (running [255, 2, 208, 14, 0, 0, 250, 1, 0])) (fun t =>
      decide (t.acc = 1000 ∧ t.tsi = 0 ∧ t.fluxq = [] ∧ t.pc = 6)) = true := by decide
/-- S5: the sentinel is not borrowed as the fourth operand byte. -/
theorem test_space_S5 :
    yields (step (running [255, 2, 0, 0, 0, 0])) (fun t =>
      decide (t.status = .err ∧ t.errKind = .unexpectedEndOfStream)) = true := by decide
/-- V115: six bytes do not help opcode 0. -/
theorem test_reserved0_V115 :
    yields (step (running [255, 0, 0, 0, 0, 0, 0])) (fun t =>
      decide (t.errKind = .unknownOpcode ∧ t.errVal = 0)) = true := by decide
/-- V103: the 0 is the sentinel, not an opcode. -/
theorem test_reserved0_V103 :
    yields (step (running [255, 0])) (fun t => decide (t.errKind = .unexpectedEndOfStream)) = true := by decide
/-- V111: an unknown opcode wins over too few bytes. -/
theorem test_reserved_V111 :
    yields (step (running [255, 3, 0])) (fun t =>
      decide (t.status = .err ∧ t.errKind = .unknownOpcode ∧ t.errVal = 3)) = true := by decide
/-- V113: the second 255 is an opcode byte. -/
theorem test_reserved_V113 :
    yields (step (running [255, 255, 0])) (fun t =>
      decide (t.errKind = .unknownOpcode ∧ t.errVal = 255)) = true := by decide
/-- V100's last step: the tick left in ACC is dropped. -/
theorem test_end_V100 :
    yields (step { running [255, 2, 2, 0, 0, 0, 0] with pc := 6, acc := 1 }) (fun t =>
      decide (t.status = .done ∧ t.acc = 1 ∧ t.fluxq = [] ∧ t.pc = 6)) = true := by decide
/-- V2: the empty prefix. -/
theorem test_end_V2 : yields (step (running [0])) (fun t => decide (t.status = .done)) = true := by decide

/-! ### START and the host -/

/-- V1, V5, V6: MalformedBuffer before anything else. -/
theorem test_start_V1 :
    yields (step (waiting [] [.start])) (fun t => decide (t.errKind = .malformedBuffer)) = true := by decide
theorem test_start_V6 :
    yields (step (waiting [255, 9, 5] [.start])) (fun t =>
      decide (t.status = .err ∧ t.errKind = .malformedBuffer ∧ t.errVal = 0)) = true := by decide
theorem test_start_again :
    yields (step { waiting [5, 0] [.start] with
        status := .err, errKind := .unknownOpcode, errVal := 7, pc := 9, acc := 4, tsi := -4 }) (fun t =>
      decide (t.status = .run ∧ t.errKind = .none ∧ t.errVal = 0 ∧ t.pc = 0 ∧ t.acc = 0 ∧ t.tsi = 0)) = true := by
  decide
theorem test_write_in_run :
    refusedWith (step { running [5, 0] with inbox := [.writeBuf 0 6] }) .bufferWrittenWhileRunning = true := by decide
theorem test_reset_in_run :
    yields (step { running [5, 0] with inbox := [.reset], fluxq := [1] }) (fun t =>
      decide (t = { State.reset with bufSeed := 1 })) = true := by decide
/-- Operand bytes the host never wrote are free bytes (R24, U10): the SPACE runs on them. -/
theorem test_unwritten_operand :
    yields (step { running [255, 2] with len := 7 }) (fun t => decide (t.status = .run ∧ t.pc = 6 ∧ t.fluxq = [])) = true := by
  decide
/-- An unwritten sentinel is a free byte: START goes to RUN or to MalformedBuffer. -/
theorem test_unwritten_sentinel :
    let s : State := { waiting [5] [] with len := 2 }
    start s = .next { s.reinit with status := .run } ∨ start s = .next (s.reinit.raise .malformedBuffer 0) := by
  intro s
  by_cases h : s.byteAt 1 = 0
  · exact .inl (start_eq_next.mpr ⟨rfl, .inr ⟨by decide, h, rfl⟩⟩)
  · exact .inr (start_eq_next.mpr ⟨rfl, .inl ⟨.inr h, rfl⟩⟩)
/-- Writing a byte twice keeps one entry, in address order. -/
theorem test_write_canonical : writeByte (writeByte (writeByte [] 3 7) 1 8) 3 9 = [(1, 8), (3, 9)] := by decide

/-! ### Reset has every invariant -/

theorem test_reset_inv : Inv State.reset := by decide

/-! ### Witnesses: the hypotheses of each obligation can be met, clause by clause -/

theorem witness_resetPutsTheSpecifiedState :
    ({ running [5, 0] with inbox := [.reset, .start] } : State).inbox = .reset :: [.start] := by decide

theorem witness_startInitialises_empty :
    (waiting [] [.start]).inbox = .start :: [] ∧ (waiting [] [.start]).status ≠ .run
      ∧ lenFits (waiting [] [.start]).params.lenMax 0 = true ∧ (waiting [] [.start]).len = 0 := by decide
theorem witness_startInitialises_badSentinel :
    (waiting [5] [.start]).status ≠ .run
      ∧ (waiting [5] [.start]).byteAt ((waiting [5] [.start]).len - 1) ≠ 0 := by decide
theorem witness_startInitialises_good :
    (waiting [0] [.start]).len ≠ 0 ∧ (waiting [0] [.start]).byteAt ((waiting [0] [.start]).len - 1) = 0 := by decide

theorem witness_startForgets :
    let s := { waiting [5, 0] [.start] with status := .done, acc := 3, tsi := -2, fluxq := [1], indexq := [-1] }
    let t := { waiting [5, 0] [.start] with status := .err, errKind := .unknownOpcode, errVal := 7, pc := 1 }
    s.inbox = .start :: [] ∧ t.inbox = .start :: [] ∧ s.status ≠ .run ∧ t.status ≠ .run ∧ s.len = t.len
      ∧ s.buf = t.buf ∧ s.bufSeed = t.bufSeed ∧ s.params = t.params := by decide

theorem witness_startStops :
    ({ running [5, 0] with inbox := [.start] } : State).status = .run
      ∧ lenFits (some 8) (waiting [1, 2, 3, 4, 5, 6, 7, 8, 0] [.start]).len = false
      ∧ (waiting [1, 2, 3, 4, 5, 6, 7, 8, 0] [.start]).status ≠ .run := by decide

theorem witness_flux1 :
    WellFormed (.flux1 249) ∧ WellFormed (.flux1 0) ∧ AtByteCode (narrow [249, 0])
      ∧ natFits (some 8) (6 + (249 : Byte).toNat) = true ∧ intFits (some 9) (6 + (249 : Byte).toNat) = true
      ∧ hasRoom (some 1) 0 = true ∧ ({ narrow [249, 0] with acc := 6 } : State).acc = 6 := by decide
theorem witness_flux2_truncated :
    WellFormed (.flux2 250 0) ∧ AtByteCode (running [250, 0]) ∧ (running [250, 0]).remaining < 2 := by decide
theorem witness_flux2_complete :
    WellFormed (.flux2 254 255) ∧ AtByteCode (running [254, 255, 0]) ∧ 2 ≤ (running [254, 255, 0]).remaining
      ∧ natFits none 1524 = true ∧ intFits none 1524 = true ∧ hasRoom none 0 = true := by decide
theorem witness_index_truncated :
    AtByteCode (running [255, 1, 0, 0, 0, 0]) ∧ (running [255, 1, 0, 0, 0, 0]).remaining = 5 := by decide
theorem witness_index_complete :
    AtByteCode (running [255, 1, 2, 0, 0, 0, 0]) ∧ 6 ≤ (running [255, 1, 2, 0, 0, 0, 0]).remaining
      ∧ intFits none (0 + 0 + 1) = true ∧ intFits none (-(0 + 1)) = true ∧ hasRoom none 0 = true := by decide
/-- 128 does not fit 8 bits in two's complement, -128 does. -/
theorem witness_index_refused :
    6 ≤ (narrow [255, 1, 0, 2, 0, 0, 0]).remaining ∧ u28 0 2 0 0 = 128 ∧ intFits (some 8) 128 = false
      ∧ intFits (some 8) (-128) = true ∧ hasRoom (some 1) 1 = false := by decide
theorem witness_space :
    (running [255, 2, 0, 0, 0, 0]).remaining = 5 ∧ (running [255, 2, 0, 0, 0, 0, 0]).remaining = 6
      ∧ AtByteCode (running [255, 2, 0, 0, 0, 0, 0]) ∧ natFits (some 8) 255 = true ∧ natFits (some 8) 256 = false
      ∧ u28 0 4 0 0 = 256 := by decide
theorem witness_operandFetch_short :
    let s := running [255, 2, 0, 0, 0, 0]
    s.inbox = [] ∧ AtByteCode s ∧ 2 ≤ s.remaining ∧ s.byteAt s.pc = 255 ∧ s.byteAt (s.pc + 1) = 2
      ∧ s.remaining < 6 := by decide
theorem witness_operandFetch_whole :
    let s := running [255, 1, 2, 4, 6, 8, 0]
    s.byteAt s.pc = 255 ∧ s.byteAt (s.pc + 1) = 1 ∧ 6 ≤ s.remaining ∧ s.byteAt (s.pc + 2) = 2
      ∧ s.byteAt (s.pc + 3) = 4 ∧ s.byteAt (s.pc + 4) = 6 ∧ s.byteAt (s.pc + 5) = 8 := by decide
theorem witness_reservedOpcodes :
    AtByteCode (running [255, 3, 0]) ∧ 2 ≤ (running [255, 3, 0]).remaining ∧ WellFormed (.reservedEscape 3)
      ∧ WellFormed (.reservedEscape 255) := by decide
theorem witness_reservedTruncated :
    AtByteCode (running [255, 0]) ∧ (running [255, 0]).remaining < 2 := by decide
theorem witness_end :
    AtSentinel (running [0]) ∧ (running [0]).inbox = [] ∧ AtSentinel { running [5, 0] with pc := 1 } := by decide
theorem witness_meaningsStop :
    State.reset.status ≠ .run ∧ (running [0]).status = .run ∧ (Instr.flux1 0) ≠ .endOfStream
      ∧ (running [0]).len ≤ (running [0]).pc + 1 ∧ (running [5, 0]).pc + 1 ≠ (running [5, 0]).len := by decide

theorem witness_stepRuns :
    let s := running [250, 51, 0]
    s.status = .run ∧ s.pc < s.len ∧ decode s.remaining s.window = .ok (.flux2 250 51) ∧ s.inbox = []
      ∧ ({ s with inbox := [.wait, .reset] } : State).inbox = .wait :: [.reset] := by decide
theorem witness_placedWord :
    decodeTableWord 48 0x0201 = some (.flux1 1) ∧ decodeTableWord 16 0xFF02 = some (.space 0 0 0 0) := by decide

theorem witness_unknownOpcode :
    (running [255, 7, 0]).inbox = [] ∧ (running [255, 7, 0]).status = .run
      ∧ yields (step (running [255, 7, 0])) (fun t => decide (t.errKind = .unknownOpcode ∧ t.errVal = 7)) = true := by
  decide
theorem witness_unexpectedEnd :
    yields (step (running [254, 0])) (fun t => decide (t.errKind = .unexpectedEndOfStream)) = true
      ∧ yields (step (running [255, 0])) (fun t => decide (t.errKind = .unexpectedEndOfStream)) = true
      ∧ yields (step (running [255, 1, 0])) (fun t => decide (t.errKind = .unexpectedEndOfStream)) = true
      ∧ yields (step (running [255, 2, 0, 0, 0, 0])) (fun t => decide (t.errKind = .unexpectedEndOfStream)) = true := by
  decide
theorem witness_raise :
    yields (step (running [255, 7, 0])) (fun t => decide (t.status = .err)) = true
      ∧ yields (step (waiting [5] [.start])) (fun t => decide (t.status = .err)) = true := by decide

/-- A cursor that moves by 1, by 2 and by 6. -/
theorem witness_cursorMoves :
    yields (step (running [5, 0])) (fun t => decide (t.status = .run ∧ t.pc = 1)) = true
      ∧ yields (step (running [250, 1, 0])) (fun t => decide (t.status = .run ∧ t.pc = 2)) = true
      ∧ yields (step (running [255, 1, 0, 0, 0, 0, 0])) (fun t => decide (t.status = .run ∧ t.pc = 6)) = true := by
  decide

theorem witness_endedDecodes :
    State.reset.inbox = [] ∧ State.reset.status ≠ .run
      ∧ yields (step (waiting [0] [.start])) (fun t => decide (t.status ≠ .idle)) = true
      ∧ yields (step { waiting [0] [.reset] with status := .done }) (fun t => decide (t.status ≠ .done)) = true := by
  decide
theorem witness_runningDecode :
    let s := running [5, 255, 0]
    Inv s ∧ s.params = Params.unbounded ∧ s.inbox = [] ∧ s.status = .run := by decide
theorem witness_noBufferByteStops :
    let s : State := { running [] with len := 3 }
    readByte s.buf 0 = none ∧ s.inbox = [] ∧ s.status = .run ∧ s.pc < s.len ∧ (running []).len ≤ (running []).pc
      ∧ (waiting [] [.start]).inbox = .start :: [] := by decide

theorem witness_decodeOfEncode :
    (WellFormed (.flux1 249) ∧ FitsBefore (.flux1 249) 1) ∧ (WellFormed (.flux2 250 255) ∧ FitsBefore (.flux2 250 255) 2)
      ∧ FitsBefore (.index 1 2 3 4) 6 ∧ FitsBefore (.space 255 255 255 255) 6 ∧ FitsBefore .reservedEscape0 2
      ∧ (WellFormed (.reservedEscape 3) ∧ FitsBefore (.reservedEscape 3) 2) ∧ FitsBefore .endOfStream 0 := by decide
theorem witness_decoded : decode 7 [255, 2, 1, 2, 3, 4, 9] = .ok (.space 1 2 3 4) := by decide
/-- The values where the arms of the lead-byte map and of the opcode map meet. -/
theorem witness_selects :
    decode 6 [249, 0, 0, 0, 0, 0] = .ok (.flux1 249) ∧ decode 6 [250, 0, 0, 0, 0, 0] = .ok (.flux2 250 0)
      ∧ decode 6 [254, 0, 0, 0, 0, 0] = .ok (.flux2 254 0) ∧ decode 6 [255, 0, 0, 0, 0, 0] = .ok .reservedEscape0
      ∧ decode 6 [255, 1, 0, 0, 0, 0] = .ok (.index 0 0 0 0) ∧ decode 6 [255, 2, 0, 0, 0, 0] = .ok (.space 0 0 0 0)
      ∧ decode 6 [255, 3, 0, 0, 0, 0] = .ok (.reservedEscape 3) := by decide
theorem witness_packing : (268435455 : Nat) < 2 ^ 28 ∧ (0 : Nat) < 2 ^ 28 := by decide
theorem witness_tiling :
    flux2Imm 250 1 = 250 ∧ flux2Imm 250 255 = 504 ∧ flux2Imm 251 1 = 505 ∧ flux2Imm 254 255 = 1524
      ∧ flux2Imm 254 0 = 1269 ∧ WellFormed (.flux2 250 1) ∧ WellFormed (.flux2 254 255) := by decide
theorem witness_reservedBits :
    (254 : Byte).toNat / 2 = (255 : Byte).toNat / 2 ∧ (0 : Byte).toNat / 2 = (1 : Byte).toNat / 2 := by decide

theorem witness_frames :
    yields (exec (.flux1 5) (running [5, 0])) (fun t => decide (t.status ≠ .err)) = true
      ∧ yields (exec (.flux2 250 1) (running [250, 1, 0])) (fun t => decide (t.status ≠ .err)) = true
      ∧ yields (exec (.index 2 0 0 0) (running [255, 1, 2, 0, 0, 0, 0])) (fun t => decide (t.status ≠ .err)) = true
      ∧ yields (exec (.space 2 0 0 0) (running [255, 2, 2, 0, 0, 0, 0])) (fun t => decide (t.status ≠ .err)) = true
      ∧ yields (exec .endOfStream (running [0])) (fun t => decide (t.status = .done)) = true := by decide
theorem witness_faultingFrame :
    yields (exec .reservedEscape0 (running [255, 0, 0])) (fun t => decide (t.status = .err)) = true
      ∧ yields (exec (.reservedEscape 9) (running [255, 9, 0])) (fun t => decide (t.status = .err)) = true
      ∧ yields (exec (.flux2 250 0) (running [250, 0])) (fun t => decide (t.status = .err)) = true := by decide
theorem witness_queuesGrow :
    yields (step (running [5, 0])) (fun t => decide (t.status ≠ .err)) = true ∧ (running [5, 0]).inbox = [] := by decide
theorem witness_bufferStays :
    (running [5, 0]).inbox.head? ≠ some .reset
      ∧ ({ running [5, 0] with inbox := [.readStatus] } : State).inbox.head? ≠ some .reset
      ∧ yields (step { running [5, 0] with inbox := [.readStatus] }) (fun _ => true) = true := by decide
/-- Buffers that differ at every address but those the step reads: a FLUX1, an escape cut off after its opcode, END. -/
theorem witness_stepReads :
    let other : Memory := [(0, 5), (1, 9), (7, 3)]
    let s := running [5, 250, 7, 0]
    s.inbox = [] ∧ s.status = .run ∧ s.bytesRead = 1 ∧ ({ s with buf := other } : State).byteAt 0 = s.byteAt 0
      ∧ yields (step s) (fun _ => true) = true ∧ (running [255, 2, 8, 0]).bytesRead = 2 ∧ (running [0]).bytesRead = 0 := by
  decide

theorem witness_hostMoves :
    (waiting [5, 0] [.writeBuf 0 7]).status ≠ .run ∧ (waiting [5, 0] [.writeBuf 0 7]).inbox = .writeBuf 0 7 :: []
      ∧ (waiting [5, 0] [.writeLen 1]).inbox = .writeLen 1 :: []
      ∧ (waiting [5, 0] [.readQueues]).inbox = .readQueues :: []
      ∧ ({ running [5, 0] with inbox := [.readStatus] } : State).inbox = .readStatus :: [] := by decide
theorem witness_forbiddenMoves :
    let s : State := { running [5, 0] with inbox := [.writeLen 1] }
    s.status = .run ∧ s.inbox = .writeLen 1 :: [] ∧ refusedWith (step s) .lenWrittenWhileRunning = true
      ∧ refusedWith (step { s with inbox := [.start] }) .startWhileRunning = true
      ∧ refusedWith (step { s with inbox := [.readQueues] }) .queuesReadWhileRunning = true := by decide
theorem witness_load :
    (waiting [] (loadMoves [5, 0])).status ≠ .run
      ∧ (waiting [] (loadMoves [5, 0])).inbox = [.writeBuf 0 5, .writeBuf 1 0, .writeLen 2, .start] := by decide
theorem witness_hostSees :
    let s : State := { running [5, 0] with fluxq := [1], acc := 3 }
    let t : State := running [5, 0]
    s.status = t.status ∧ s.errKind = t.errKind ∧ s.errVal = t.errVal ∧ ¬ s.status ≠ .run ∧ s ≠ t := by decide
theorem witness_hostSees_ended :
    let s : State := { running [5, 0] with status := .done, fluxq := [5], acc := 3 }
    let t : State := { running [5, 0] with status := .done, fluxq := [5], pc := 1 }
    s.status = t.status ∧ s.fluxq = t.fluxq ∧ s.indexq = t.indexq ∧ s ≠ t := by decide
theorem witness_commit :
    (running [0]).inbox = [] ∧ AtSentinel (running [0])
      ∧ yields (step { running [255, 7, 0] with fluxq := [1] }) (fun t => decide (t.status = .err)) = true := by decide

theorem witness_nothingRefused :
    (running [5, 0]).params = Params.unbounded ∧ (waiting [5, 0] [.start]).inbox = .start :: []
      ∧ (waiting [5, 0] [.start]).params = Params.unbounded := by decide
/-- Each kind of refusal, at the value just past the boundary. -/
theorem witness_refused :
    AtByteCode { narrow [1, 0] with acc := 255 } ∧ FitsBefore (.flux1 1) (narrow [1, 0]).remaining
      ∧ natFits (some 8) (255 + 1) = false ∧ intFits (some 8) (127 + 1) = false ∧ hasRoom (some 1) 1 = false
      ∧ refusedWith (exec (.flux1 1) { narrow [1, 0] with acc := 255 }) .capacityExceeded = true
      ∧ refusedWith (exec (.flux1 1) { narrow [1, 0] with tsi := 127 }) .capacityExceeded = true
      ∧ refusedWith (exec (.flux1 1) { narrow [1, 0] with fluxq := [0] }) .capacityExceeded = true := by decide
theorem witness_parameters : yields (step (narrow [5, 0])) (fun t => decide (t.params = (narrow [5, 0]).params)) = true := by
  decide

/-- Inside the bytes of P1, after its first INDEX: every invariant holds and the step is taken. -/
def midway : State :=
  { running [10, 20, 255, 1, 10, 0, 0, 0, 30, 0] with pc := 8, tsi := -5, fluxq := [10, 20], indexq := [35] }

theorem witness_invariant : Inv midway ∧ yields (step midway) (fun _ => true) = true := by decide
theorem witness_bounds : PulseInv midway ∧ BoundsInv midway ∧ CountsInv midway := by decide
theorem witness_fits : FitsInv { narrow [5, 0] with acc := 255, tsi := -128, fluxq := [7], indexq := [127] } := by
  simp [FitsInv, narrow, running, natFits, intFits, lenFits]
theorem witness_indexEntries :
    let s : State := { running [10, 20, 255, 1, 10, 0, 0, 0, 0] with pc := 2, tsi := 30, fluxq := [10, 20] }
    ClockInv s ∧ yields (exec (.index 10 0 0 0) s) (fun t => decide (t.status = .run ∧ t.indexq.sum = 35)) = true := by
  decide
/-- V91: INDEX 5, INDEX 3. -/
theorem witness_secondIndex :
    yields (exec (.index 10 0 0 0) (running [255, 1, 10, 0, 0, 0, 255, 1, 6, 0, 0, 0, 0])) (fun t =>
      yields (exec (.index 6 0 0 0) t) (fun u => decide (u.status = .run ∧ u.indexq = [5, -2]))) = true := by decide
theorem witness_spacesAddUp :
    yields (exec (.space 2 0 0 0) (running [255, 2, 2, 0, 0, 0, 255, 2, 4, 0, 0, 0, 3, 0])) (fun t =>
      yields (exec (.space 4 0 0 0) t) (fun u =>
        yields (exec (.flux1 3) u) (fun v => decide (v.status = .run ∧ v.fluxq = [6] ∧ v.acc = 0)))) = true := by decide

/-- S2, as the whole-call function gives it, and the state in which the step machine is to agree. -/
theorem witness_agreement :
    let bs : List Byte := [5, 255, 2, 0, 0, 0, 0, 0]
    let s := waiting bs [.start]
    s.inbox = [.start] ∧ s.status ≠ .run ∧ s.params = Params.unbounded ∧ s.bytesFrom 0 s.len = bs
      ∧ decodeFlux bs = .ok [5] [] := by decide
theorem witness_longer :
    decodeFlux ([5] ++ [0]) = .ok [5] [] ∧ decodeFlux ([5] ++ [255, 1, 2, 0, 0, 0] ++ [0]) = .ok [5] [6] := by decide

end Sys2Proof.Tests
end

section
/-! The parameters of 00_scope R5 as a bound that every step keeps (60_exceptions R123): one lemma per operation on the
state, then the meanings, the decoder's move, the host's moves and the step. -/
namespace Sys2Proof.Machine

/-- A queue that had room for one more entry is within its capacity after the append. -/
theorem length_append_le_of_hasRoom {α : Type} {cap : Option Nat} {q : List α} {x : α}
    (h : hasRoom cap q.length = true) : ∀ c, cap = some c → (q ++ [x]).length ≤ c := by
  rintro c rfl
  have hlt := hasRoom_some.mp h
  simp only [List.length_append, List.length_singleton]
  omega

theorem emitFluxFits_iff {n : Nat} {s : State} :
    emitFluxFits n s = true ↔
      natFits s.params.accBits (s.acc + n) = true ∧ intFits s.params.tsiBits (s.tsi + (s.acc + n : Nat)) = true
        ∧ hasRoom s.params.fluxqCap s.fluxq.length = true := by
  simp only [emitFluxFits, Bool.and_eq_true, and_assoc]

theorem emitIndexFits_iff {v : Nat} {s : State} :
    emitIndexFits v s = true ↔
      intFits s.params.tsiBits (s.tsi + s.acc + v) = true ∧ intFits s.params.tsiBits (-((s.acc : Int) + v)) = true
        ∧ hasRoom s.params.indexqCap s.indexq.length = true := by
  simp only [emitIndexFits, Bool.and_eq_true, and_assoc]

/-! ### The operations -/

theorem FitsInv.advance {s : State} (h : FitsInv s) (n : Nat) : FitsInv (s.advance n) := h

theorem FitsInv.emitFlux {n : Nat} {s : State} (h : FitsInv s) (hf : emitFluxFits n s = true) :
    FitsInv (emitFlux n s) := by
  obtain ⟨-, -, hflux, hindex, -, hicap, hlen⟩ := h
  obtain ⟨hinterval, htsi, hroom⟩ := emitFluxFits_iff.mp hf
  exact ⟨natFits_zero _, htsi, List.forall_mem_append.mpr ⟨hflux, List.forall_mem_singleton.mpr hinterval⟩,
    hindex, length_append_le_of_hasRoom hroom, hicap, hlen⟩

theorem FitsInv.emitIndex {v : Nat} {s : State} (h : FitsInv s) (hf : emitIndexFits v s = true) :
    FitsInv (emitIndex v s) := by
  obtain ⟨hacc, -, hflux, hindex, hfcap, -, hlen⟩ := h
  obtain ⟨hentry, htsi, hroom⟩ := emitIndexFits_iff.mp hf
  exact ⟨hacc, htsi, hflux, List.forall_mem_append.mpr ⟨hindex, List.forall_mem_singleton.mpr hentry⟩, hfcap,
    length_append_le_of_hasRoom hroom, hlen⟩

theorem FitsInv.addSpace {v : Nat} {s : State} (h : FitsInv s) (hf : addSpaceFits v s = true) :
    FitsInv (addSpace v s) := by
  obtain ⟨-, hrest⟩ := h
  exact ⟨hf, hrest⟩

theorem FitsInv.raise {s : State} (h : FitsInv s) (k : ErrKind) (info : Byte) : FitsInv (s.raise k info) := by
  obtain ⟨hacc, htsi, -⟩ := h
  exact ⟨hacc, htsi, by simp, by simp, by simp, by simp, by simp⟩

theorem FitsInv.finish {s : State} (h : FitsInv s) : FitsInv s.finish := by
  obtain ⟨hacc, htsi, hflux, hindex, hfcap, hicap, -⟩ := h
  exact ⟨hacc, htsi, hflux, hindex, hfcap, hicap, by simp⟩

/-- Zero registers and empty queues fit any parameters; what is left to check is the length in `RUN`. -/
theorem fitsInv_of_cleared {s : State} (hacc : s.acc = 0) (htsi : s.tsi = 0) (hflux : s.fluxq = [])
    (hindex : s.indexq = []) (hlen : s.status = .run → lenFits s.params.lenMax s.len = true) : FitsInv s := by
  refine ⟨?_, ?_, ?_, ?_, ?_, ?_, hlen⟩
  · rw [hacc]; exact natFits_zero _
  · rw [htsi]; exact intFits_zero _
  all_goals simp [hflux, hindex]

theorem FitsInv.hostReset (s : State) : FitsInv s.hostReset :=
  fitsInv_of_cleared rfl rfl rfl rfl (by simp)

/-- Outside `RUN` the host may set the buffer and its length to anything: neither is bounded there. -/
theorem FitsInv.hostWrite {s : State} (h : FitsInv s) (hr : s.status ≠ .run) (m : Memory) (n : Nat) :
    FitsInv { s with buf := m, len := n } := by
  obtain ⟨hacc, htsi, hflux, hindex, hfcap, hicap, -⟩ := h
  exact ⟨hacc, htsi, hflux, hindex, hfcap, hicap, fun he => absurd he hr⟩

/-! ### The meanings and the moves -/

/-- START clears what is bounded and lets only a length within LEN_MAX into `RUN`, whatever state it is asked in. -/
theorem fitsInv_of_start {s t : State} (h : start s = .next t) : FitsInv t := by
  obtain ⟨hlen, ⟨-, rfl⟩ | ⟨-, -, rfl⟩⟩ := start_eq_next.mp h
  · exact fitsInv_of_cleared rfl rfl rfl rfl (by simp)
  · exact fitsInv_of_cleared rfl rfl rfl rfl fun _ => hlen

theorem FitsInv.exec {i : Instr} {s t : State} (h : FitsInv s) (he : exec i s = .next t) : FitsInv t := by
  cases i with
  | flux1 b =>
    obtain ⟨-, hf, rfl⟩ := execFlux1_eq_next.mp he
    exact (h.emitFlux hf).advance 1
  | flux2 b e =>
    obtain ⟨-, ⟨-, rfl⟩ | ⟨-, hf, rfl⟩⟩ := execFlux2_eq_next.mp he
    · exact h.raise _ _
    · exact (h.emitFlux hf).advance 2
  | index b0 b1 b2 b3 =>
    obtain ⟨-, ⟨-, rfl⟩ | ⟨-, hf, rfl⟩⟩ := execIndex_eq_next.mp he
    · exact h.raise _ _
    · exact (h.emitIndex hf).advance 6
  | space b0 b1 b2 b3 =>
    obtain ⟨-, ⟨-, rfl⟩ | ⟨-, hf, rfl⟩⟩ := execSpace_eq_next.mp he
    · exact h.raise _ _
    · exact (h.addSpace hf).advance 6
  | reservedEscape0 =>
    obtain ⟨-, ⟨-, rfl⟩ | ⟨-, rfl⟩⟩ := execReservedEscape0_eq_next.mp he <;> exact h.raise _ _
  | reservedEscape op =>
    obtain ⟨-, ⟨-, rfl⟩ | ⟨-, rfl⟩⟩ := execReservedEscape_eq_next.mp he <;> exact h.raise _ _
  | endOfStream =>
    obtain ⟨-, rfl⟩ := execEndOfStream_eq_next.mp he
    exact h.finish

theorem FitsInv.decoderStep {s t : State} (h : FitsInv s) (hd : decoderStep s = .next t) : FitsInv t := by
  obtain ⟨-, rfl⟩ | ⟨-, i, -, he⟩ | ⟨-, -, rfl⟩ := decoderStep_cases hd
  · exact h
  · exact h.exec he
  · exact h.raise _ _

theorem FitsInv.serveHost {a : HostAction} {s t : State} (h : FitsInv s) (hs : serveHost a s = .next t) :
    FitsInv t := by
  obtain ⟨hr, x, b, -, rfl⟩ | ⟨hr, n, -, rfl⟩ | ⟨-, -, hstart⟩ | ⟨-, rfl⟩ | ⟨-, rfl⟩ | ⟨-, hd⟩ :=
    serveHost_cases hs
  · exact h.hostWrite hr _ _
  · exact h.hostWrite hr _ n
  · exact fitsInv_of_start hstart
  · exact h
  · exact FitsInv.hostReset s
  · exact h.decoderStep hd

/-- Settles O53: whoever moves, the move keeps the bound; taking a move off the inbox does not touch it. -/
theorem everyStepStaysWithinTheParameters : Obligations.EveryStepStaysWithinTheParameters := by
  intro s t h hstep
  cases hin : s.inbox with
  | nil => exact h.decoderStep (step_decoder hin ▸ hstep)
  | cons a rest =>
    have hrest : FitsInv { s with inbox := rest } := h
    exact hrest.serveHost (step_host hin ▸ hstep)

end Sys2Proof.Machine
end

section
/-! Where a refusal comes from: in the meanings and START from a parameter alone (60_exceptions R123), so at the
defaults of 00_scope R5 from nowhere. -/
namespace Sys2Proof.Machine

theorem commit_eq_refused {fits : Bool} {t : State} {r : Refusal} :
    commit fits t = .refused r ↔ fits = false ∧ r = .capacityExceeded := by
  cases fits <;> simp [commit, eq_comm]

/-- The length test refuses nothing itself: it hands on the refusal of the effect it guards. -/
theorem needBytes_eq_refused {n : Nat} {s : State} {e : Result} {r : Refusal} :
    needBytes n s e = .refused r ↔ AtByteCode s ∧ n ≤ s.remaining ∧ e = .refused r := by
  by_cases h : AtByteCode s
  · by_cases hn : n ≤ s.remaining
    · rw [needBytes_pass h hn, and_iff_right h, and_iff_right hn]
    · simp [needBytes_truncated h (Nat.lt_of_not_le hn), hn]
  · have hstop : needBytes n s e ≠ .refused r := by
      unfold needBytes
      split
      · simp
      · next hr =>
        split
        · simp
        · next hlen => exact absurd ⟨not_not.mp hr, Nat.lt_of_not_le hlen⟩ h
    simp [hstop, h]

/-- A byte-code whose values fit is not refused. -/
theorem needBytes_commit_ne_refused {n : Nat} {s t : State} {fits : Bool} {r : Refusal} (hf : fits = true) :
    needBytes n s (commit fits t) ≠ .refused r := by
  simp [needBytes_eq_refused, commit_eq_refused, hf]

theorem execEndOfStream_ne_refused {s : State} {r : Refusal} : execEndOfStream s ≠ .refused r := by
  unfold execEndOfStream
  split
  · simp
  · split <;> simp

theorem start_eq_refused {s : State} {r : Refusal} :
    start s = .refused r ↔ lenFits s.params.lenMax s.len = false ∧ r = .capacityExceeded := by
  unfold start
  cases lenFits s.params.lenMax s.len with
  | false => simp [eq_comm]
  | true =>
    simp only [Bool.true_eq_false, if_false, false_and, iff_false]
    split
    · simp
    · split <;> simp

section
variable {s : State} (hp : s.params = Params.unbounded)
include hp

theorem emitFluxFits_of_unbounded (n : Nat) : emitFluxFits n s = true := by
  simp [emitFluxFits_iff, hp, Params.unbounded]

theorem emitIndexFits_of_unbounded (v : Nat) : emitIndexFits v s = true := by
  simp [emitIndexFits_iff, hp, Params.unbounded]

theorem addSpaceFits_of_unbounded (v : Nat) : addSpaceFits v s = true := by
  simp [addSpaceFits, hp, Params.unbounded]

theorem exec_ne_refused_of_unbounded (i : Instr) (r : Refusal) : exec i s ≠ .refused r := by
  cases i with
  | flux1 b => exact needBytes_commit_ne_refused (emitFluxFits_of_unbounded hp _)
  | flux2 b e => exact needBytes_commit_ne_refused (emitFluxFits_of_unbounded hp _)
  | index b0 b1 b2 b3 => exact needBytes_commit_ne_refused (emitIndexFits_of_unbounded hp _)
  | space b0 b1 b2 b3 => exact needBytes_commit_ne_refused (addSpaceFits_of_unbounded hp _)
  | reservedEscape0 => simp [exec, execReservedEscape0, needBytes_eq_refused]
  | reservedEscape op => simp [exec, execReservedEscape, needBytes_eq_refused]
  | endOfStream => exact execEndOfStream_ne_refused

theorem decoderStep_ne_refused_of_unbounded (r : Refusal) : decoderStep s ≠ .refused r := by
  by_cases hr : s.status = .run
  · rw [decoderStep_run hr]
    split
    · exact exec_ne_refused_of_unbounded hp _ r
    · simp
    · simp
  · simp [decoderStep_waits hr]

theorem start_ne_refused_of_unbounded (r : Refusal) : start s ≠ .refused r := by
  simp [start_eq_refused, hp, Params.unbounded]

end

theorem serveHost_start {s : State} (h : s.status ≠ .run) : serveHost .start s = start s := by
  simp [serveHost, h]

/-- Settles O46: with no finite parameter every value fits, and no other refusal is in a meaning, the decoder's move or
START outside `RUN`. -/
theorem nothingIsRefusedAtTheDefaults : Obligations.NothingIsRefusedAtTheDefaults := by
  intro s r hp
  refine ⟨fun i => exec_ne_refused_of_unbounded hp i r, fun hin => ?_, fun rest hr hin => ?_⟩
  · rw [step_decoder hin]
    exact decoderStep_ne_refused_of_unbounded hp r
  · have hp' : ({ s with inbox := rest } : State).params = Params.unbounded := hp
    rw [step_host hin, serveHost_start (s := { s with inbox := rest }) hr]
    exact start_ne_refused_of_unbounded hp' r

end Sys2Proof.Machine
end

section
/-! What the decoder hands to the meanings: a well-formed byte-code that lies before the sentinel, or END at it
(30_encoding R51, R52, R55, R61, R62). -/
namespace Sys2Proof

theorem decodeEscape_sound {rem : Nat} {op : Byte} {l : List Byte} {i : Instr} (hrem : 2 ≤ rem)
    (h : decodeEscape rem op l = .ok i) : WellFormed i ∧ FitsBefore i rem := by
  obtain ⟨-, h6, b0, b1, b2, b3, tail, -, rfl⟩ | ⟨-, h6, b0, b1, b2, b3, tail, -, rfl⟩ | ⟨-, rfl⟩ | ⟨h3, rfl⟩ :=
    decodeEscape_cases h
  · exact ⟨trivial, h6⟩
  · exact ⟨trivial, h6⟩
  · exact ⟨trivial, hrem⟩
  · exact ⟨h3, hrem⟩

theorem decode_sound {rem : Nat} {bytes : List Byte} {i : Instr} (h : decode rem bytes = .ok i) :
    WellFormed i ∧ FitsBefore i rem := by
  obtain ⟨h0, rfl⟩ | ⟨h1, b, tail, -, hb, rfl⟩ | ⟨h2, b, c, tail, -, hlo, hhi, rfl⟩ | ⟨h2, c, tail, -, he⟩ :=
    decode_cases h
  · exact ⟨trivial, h0⟩
  · exact ⟨hb, h1⟩
  · exact ⟨⟨hlo, hhi⟩, h2⟩
  · exact decodeEscape_sound h2 he

end Sys2Proof

namespace Sys2Proof.Machine

theorem fetch_sound {s : State} {i : Instr} (h : fetch s = .ok i) : WellFormed i ∧ FitsBefore i s.remaining :=
  decode_sound (fetch_eq_ok.mp h).2

end Sys2Proof.Machine
end

section
/-! The invariant of the machine through every step: one lemma per operation on the state, then the meanings, the
decoder's move, the host's moves and the step. -/
namespace Sys2Proof.Machine

/-- In `RUN` the status registers are at their values from START (40_start_dispatch_end R71). -/
theorem statusInv_iff_of_run {s : State} (hr : s.status = .run) :
    StatusInv s ↔ s.errKind = .none ∧ s.errVal = 0 := by
  constructor
  · rintro ⟨herr, hval, -⟩
    have hkind : s.errKind = .none := by simpa [hr] using herr
    exact ⟨hkind, hval (by simp [hkind])⟩
  · rintro ⟨hkind, hval⟩
    simp [StatusInv, hr, hkind, hval]

/-! ### The operations -/

/-- A fault leaves a sound `ERR` state of any state, so long as a kind is named and the byte told with an unknown
opcode is not one of the two known opcodes. -/
theorem inv_raise {s : State} {k : ErrKind} {info : Byte} (hbuf : Memory.wf s.buf) (hk : k ≠ .none)
    (hinfo : k = .unknownOpcode → info ≠ 1 ∧ info ≠ 2) : Inv (s.raise k info) := by
  refine ⟨hbuf, ⟨by simp [hk], fun h => if_neg h, fun (h : k = .unknownOpcode) => ?_, by simp⟩,
    by simp [CursorInv], by simp [ClockInv]⟩
  rw [State.raise_errVal, if_pos h]
  exact hinfo h

theorem Inv.emitFlux {n : Nat} {s : State} (h : Inv s) (hr : s.status = .run) : Inv (emitFlux n s) := by
  obtain ⟨hbuf, hstatus, hcursor, hclock⟩ := h
  have hnoErr := (statusInv_iff_of_run hr).mp hstatus
  refine ⟨hbuf, (statusInv_iff_of_run (s := Machine.emitFlux n s) hr).mpr hnoErr, hcursor, fun _ => ?_⟩
  have htsi := hclock (.inl hr)
  simp only [emitFlux_tsi, emitFlux_fluxq, emitFlux_indexq, List.sum_append, List.sum_singleton]
  omega

theorem Inv.emitIndex {v : Nat} {s : State} (h : Inv s) (hr : s.status = .run) : Inv (emitIndex v s) := by
  obtain ⟨hbuf, hstatus, hcursor, hclock⟩ := h
  have hnoErr := (statusInv_iff_of_run hr).mp hstatus
  refine ⟨hbuf, (statusInv_iff_of_run (s := Machine.emitIndex v s) hr).mpr hnoErr, hcursor, fun _ => ?_⟩
  have htsi := hclock (.inl hr)
  simp only [emitIndex_tsi, emitIndex_fluxq, emitIndex_indexq, List.sum_append, List.sum_singleton]
  omega

theorem Inv.addSpace {s : State} (h : Inv s) (v : Nat) : Inv (addSpace v s) := h

/-- The cursor may pass the bytes that lie before the sentinel. -/
theorem Inv.advance {n : Nat} {s : State} (h : Inv s) (hc : AtByteCode s) (hn : n ≤ s.remaining) :
    Inv (s.advance n) := by
  obtain ⟨hbuf, hstatus, hcursor, hclock⟩ := h
  refine ⟨hbuf, hstatus, fun hr => ⟨?_, (hcursor hr).2⟩, hclock⟩
  have hlt := hc.2
  simp only [State.advance_pc, State.advance_len]
  unfold State.remaining at hn
  omega

theorem Inv.finish {s : State} (h : Inv s) (hr : s.status = .run) : Inv s.finish := by
  obtain ⟨hbuf, hstatus, -, hclock⟩ := h
  obtain ⟨hkind, hval⟩ := (statusInv_iff_of_run hr).mp hstatus
  exact ⟨hbuf, by simp [StatusInv, hkind, hval], by simp [CursorInv], fun _ => hclock (.inl hr)⟩

theorem inv_hostReset (s : State) : Inv s.hostReset :=
  ⟨reset_buf_wf, by simp [StatusInv], by simp [CursorInv], by simp [ClockInv]⟩

/-- Outside `RUN` the host may set the length and, in canonical form, the buffer to anything. -/
theorem Inv.hostWrite {s : State} (h : Inv s) (hr : s.status ≠ .run) {m : Memory} (hm : Memory.wf m) (n : Nat) :
    Inv { s with buf := m, len := n } := by
  obtain ⟨-, hstatus, -, hclock⟩ := h
  exact ⟨hm, hstatus, fun he => absurd he hr, hclock⟩

/-! ### The meanings and the moves -/

/-- START makes a sound state of any state that holds its buffer in canonical form. -/
theorem inv_of_start {s t : State} (hbuf : Memory.wf s.buf) (h : start s = .next t) : Inv t := by
  obtain ⟨-, ⟨-, rfl⟩ | ⟨hlen, hbyte, rfl⟩⟩ := start_eq_next.mp h
  · exact inv_raise hbuf (by simp) (by simp)
  · exact ⟨hbuf, by simp [StatusInv], fun _ => ⟨Nat.one_le_iff_ne_zero.mpr hlen, hbyte⟩, by simp [ClockInv]⟩

theorem Inv.raiseTruncated {s : State} (h : Inv s) : Inv (s.raise .unexpectedEndOfStream 0) :=
  inv_raise h.1 (by simp) (by simp)

/-- An opcode byte in 3..255 is neither of the two known opcodes. -/
theorem Inv.raiseReserved {s : State} {op : Byte} (h : Inv s) (hop : 3 ≤ op.toNat) :
    Inv (s.raise .unknownOpcode op) :=
  inv_raise h.1 (by simp) fun _ => ⟨by rintro rfl; simp at hop, by rintro rfl; simp at hop⟩

theorem Inv.exec {i : Instr} {s t : State} (h : Inv s) (hwf : WellFormed i) (he : exec i s = .next t) : Inv t := by
  cases i with
  | flux1 b =>
    obtain ⟨hc, -, rfl⟩ := execFlux1_eq_next.mp he
    exact (h.emitFlux hc.1).advance hc (remaining_pos hc)
  | flux2 b e =>
    obtain ⟨hc, ⟨-, rfl⟩ | ⟨hn, -, rfl⟩⟩ := execFlux2_eq_next.mp he
    · exact h.raiseTruncated
    · exact (h.emitFlux hc.1).advance hc hn
  | index b0 b1 b2 b3 =>
    obtain ⟨hc, ⟨-, rfl⟩ | ⟨hn, -, rfl⟩⟩ := execIndex_eq_next.mp he
    · exact h.raiseTruncated
    · exact (h.emitIndex hc.1).advance hc hn
  | space b0 b1 b2 b3 =>
    obtain ⟨hc, ⟨-, rfl⟩ | ⟨hn, -, rfl⟩⟩ := execSpace_eq_next.mp he
    · exact h.raiseTruncated
    · exact (h.addSpace _).advance hc hn
  | reservedEscape0 =>
    obtain ⟨-, ⟨-, rfl⟩ | ⟨-, rfl⟩⟩ := execReservedEscape0_eq_next.mp he
    · exact h.raiseTruncated
    · exact inv_raise h.1 (by simp) (by simp)
  | reservedEscape op =>
    obtain ⟨-, ⟨-, rfl⟩ | ⟨-, rfl⟩⟩ := execReservedEscape_eq_next.mp he
    · exact h.raiseTruncated
    · exact h.raiseReserved hwf
  | endOfStream =>
    obtain ⟨hs, rfl⟩ := execEndOfStream_eq_next.mp he
    exact h.finish hs.1

theorem Inv.decoderStep {s t : State} (h : Inv s) (hd : decoderStep s = .next t) : Inv t := by
  obtain ⟨-, rfl⟩ | ⟨-, i, hf, he⟩ | ⟨-, -, rfl⟩ := decoderStep_cases hd
  · exact h
  · exact h.exec (fetch_sound hf).1 he
  · exact h.raiseTruncated

theorem Inv.serveHost {a : HostAction} {s t : State} (h : Inv s) (hs : serveHost a s = .next t) : Inv t := by
  obtain ⟨hr, x, b, -, rfl⟩ | ⟨hr, n, -, rfl⟩ | ⟨-, -, hstart⟩ | ⟨-, rfl⟩ | ⟨-, rfl⟩ | ⟨-, hd⟩ :=
    serveHost_cases hs
  · exact h.hostWrite hr (writeByte_wf x b h.1) _
  · exact h.hostWrite hr h.1 n
  · exact inv_of_start h.1 hstart
  · exact h
  · exact inv_hostReset s
  · exact h.decoderStep hd

/-- Settles O49: whoever moves, the move keeps the invariant; taking a move off the inbox does not touch it. -/
theorem everyStepKeepsTheInvariant : Obligations.EveryStepKeepsTheInvariant := by
  intro s t h hstep
  cases hin : s.inbox with
  | nil => exact h.decoderStep (step_decoder hin ▸ hstep)
  | cons a rest =>
    have hrest : Inv { s with inbox := rest } := h
    exact hrest.serveHost (step_host hin ▸ hstep)

end Sys2Proof.Machine
end

section
/-! Outside `RUN` only START and reset move STATUS (10_state R15, 60_exceptions R118). -/
namespace Sys2Proof.Machine

/-- Of the host's moves outside `RUN`, the others write the buffer or nothing. -/
theorem serveHost_changes_status {a : HostAction} {s t : State} (hr : s.status ≠ .run)
    (h : serveHost a s = .next t) (hne : t.status ≠ s.status) : a = .start ∨ a = .reset := by
  obtain ⟨-, x, b, -, rfl⟩ | ⟨-, n, -, rfl⟩ | ⟨-, ha, -⟩ | ⟨-, rfl⟩ | ⟨ha, -⟩ | ⟨-, hd⟩ := serveHost_cases h
  · exact absurd rfl hne
  · exact absurd rfl hne
  · exact .inl ha
  · exact absurd rfl hne
  · exact .inr ha
  · rw [decoderStep_waits hr, Host.Outcome.next.injEq] at hd
    exact absurd (hd ▸ rfl) hne

/-- Settles O20: with no move pending the decoder waits, and a pending move that changes STATUS is one of the two. -/
theorem endedDecodesWaitForTheHost : Obligations.EndedDecodesWaitForTheHost := by
  refine ⟨fun s hin hr => by rw [step_decoder hin, decoderStep_waits hr], fun s t hr hstep hne => ?_⟩
  cases hin : s.inbox with
  | nil =>
    rw [step_decoder hin, decoderStep_waits hr, Host.Outcome.next.injEq] at hstep
    exact absurd (hstep ▸ rfl) hne
  | cons a rest =>
    rw [step_host hin] at hstep
    obtain rfl | rfl := serveHost_changes_status (s := { s with inbox := rest }) hr hstep hne
    · exact ⟨rest, .inl rfl⟩
    · exact ⟨rest, .inr rfl⟩

end Sys2Proof.Machine
end

section
/-! No byte of the buffer faults START or the decoder's move (10_state R24, 40_start_dispatch_end R71, R72). -/
namespace Sys2Proof.Machine

theorem start_ne_fault (s : State) (f : Fault) : start s ≠ .fault f := by
  unfold start
  split
  · simp
  · split
    · simp
    · split <;> simp

/-- Where a byte-code is dispatched, the length test faults only if the effect it guards does. -/
theorem needBytes_ne_fault {n : Nat} {s : State} {e : Result} {f : Fault} (h : AtByteCode s) (he : e ≠ .fault f) :
    needBytes n s e ≠ .fault f := by
  by_cases hn : n ≤ s.remaining
  · rwa [needBytes_pass h hn]
  · simp [needBytes_truncated h (Nat.lt_of_not_le hn)]

theorem atByteCode_of_remaining {s : State} (hr : s.status = .run) (hrem : 1 ≤ s.remaining) : AtByteCode s := by
  unfold State.remaining at hrem
  exact ⟨hr, by omega⟩

theorem atSentinel_of_remaining {s : State} (hr : s.status = .run) (hpc : s.pc < s.len) (hrem : s.remaining = 0) :
    AtSentinel s := by
  unfold State.remaining at hrem
  exact ⟨hr, by omega⟩

/-- A meaning does not fault where its row is read. -/
theorem exec_ne_fault {i : Instr} {s : State} {f : Fault} (hr : s.status = .run) (hpc : s.pc < s.len)
    (hfit : FitsBefore i s.remaining) : exec i s ≠ .fault f := by
  have hdispatch {n : Nat} (hn : n + 1 ≤ s.remaining) : AtByteCode s :=
    atByteCode_of_remaining hr (Nat.le_of_add_left_le hn)
  cases i with
  | flux1 b => exact needBytes_ne_fault (hdispatch hfit) commit_ne_fault
  | flux2 b e => exact needBytes_ne_fault (hdispatch hfit) commit_ne_fault
  | index b0 b1 b2 b3 => exact needBytes_ne_fault (hdispatch hfit) commit_ne_fault
  | space b0 b1 b2 b3 => exact needBytes_ne_fault (hdispatch hfit) commit_ne_fault
  | reservedEscape0 => exact needBytes_ne_fault (hdispatch hfit) (by simp)
  | reservedEscape op => exact needBytes_ne_fault (hdispatch hfit) (by simp)
  | endOfStream =>
    have hend : exec .endOfStream s = .next s.finish :=
      execEndOfStream_eq_next.mpr ⟨atSentinel_of_remaining hr hpc hfit, rfl⟩
    simp [hend]

theorem decoderStep_ne_fault {s : State} {f : Fault} (hr : s.status = .run) (hpc : s.pc < s.len) :
    decoderStep s ≠ .fault f := by
  rw [decoderStep_run hr]
  obtain ⟨i, hf⟩ | hf := fetch_cases hpc
  · simpa only [hf] using exec_ne_fault hr hpc (fetch_sound hf).2
  · simp [hf]

/-- Past the sentinel nothing is fetched (log entry 2). -/
theorem decoderStep_pastSentinel {s : State} (hr : s.status = .run) (hpc : s.len ≤ s.pc) :
    decoderStep s = .fault .noByteCodeHere := by
  rw [decoderStep_run hr, fetch_eq_noByteCode.mpr hpc]

/-- Settles O23: START has no faulting branch, and at or before the sentinel what is fetched is read where its row
lies, so its meaning is enabled. -/
theorem noBufferByteStopsAStep : Obligations.NoBufferByteStopsAStep := by
  refine fun s => ⟨fun a ha => byteAt_of_unwritten ha, fun rest f hin => ?_, fun hin hr hpc f => ?_,
    fun hin hr hpc => ?_⟩
  · rw [step_host hin]
    by_cases hr : s.status = .run
    · simp [serveHost, hr]
    · rw [serveHost_start (s := { s with inbox := rest }) hr]
      exact start_ne_fault _ f
  · rw [step_decoder hin]
    exact decoderStep_ne_fault hr hpc
  · rw [step_decoder hin]
    exact decoderStep_pastSentinel hr hpc

end Sys2Proof.Machine
end

section
/-! What START and the host's view depend on (10_state R23, R25, 70_reset_and_hazards R131, R146). -/
namespace Sys2Proof.Machine

section
variable {s t : State} (hlen : s.len = t.len) (hbuf : s.buf = t.buf) (hseed : s.bufSeed = t.bufSeed)
  (hinbox : s.inbox = t.inbox) (hparams : s.params = t.params)
include hlen hbuf hseed hinbox hparams

/-- START sets every register, so what it leaves is known by the host's inputs. -/
theorem start_congr : start s = start t := by
  have hbyte : s.byteAt (t.len - 1) = t.byteAt (t.len - 1) := byteAt_congr hbuf hseed _
  simp only [start, State.raise, State.reinit, hlen, hbuf, hseed, hinbox, hparams, hbyte]

end

/-- Settles O3: outside `RUN` the step is START, which reads no register it does not first set. -/
theorem startForgetsTheEarlierDecode : Obligations.StartForgetsTheEarlierDecode := by
  intro s t rest hs ht hrs hrt hlen hbuf hseed hparams
  calc step s
      = start { s with inbox := rest } := by
        rw [step_host hs, serveHost_start (s := { s with inbox := rest }) hrs]
    _ = start { t with inbox := rest } :=
        start_congr (s := { s with inbox := rest }) (t := { t with inbox := rest }) hlen hbuf hseed rfl hparams
    _ = step t := by
        rw [step_host ht, serveHost_start (s := { t with inbox := rest }) hrt]

/-- Settles O44: in `RUN` the view hides the queues, outside it they are equal. -/
theorem hostSeesNoWorkingState : Obligations.HostSeesNoWorkingState := by
  intro s t hstatus hkind hval hqueues
  by_cases hr : s.status = .run
  · have hr' : t.status = .run := hstatus ▸ hr
    simp [State.hostView, hr, hr', hkind, hval]
  · obtain ⟨hflux, hindex⟩ := hqueues hr
    simp [State.hostView, hstatus, hkind, hval, hflux, hindex]

end Sys2Proof.Machine
end

section
/-! What a decoder's step from `RUN` can do to the state, and so to BUF, LEN and the queues (20_memory R38, R43, R45). -/
namespace Sys2Proof.Machine

/-- What a decoder's step from `RUN` in `s` can lead to: an emission or a sum of ticks with the cursor past the
byte-code, a fault of one of the two kinds a byte-code raises, or END at the sentinel. -/
inductive DecoderMove (s : State) : State → Prop where
  | emitFlux (n k : Nat) : DecoderMove s ((emitFlux n s).advance k)
  | emitIndex (v : Nat) : DecoderMove s ((emitIndex v s).advance 6)
  | addSpace (v : Nat) : DecoderMove s ((addSpace v s).advance 6)
  | raise {k : ErrKind} (info : Byte) (hk : k = .unknownOpcode ∨ k = .unexpectedEndOfStream) :
      DecoderMove s (s.raise k info)
  | finish (h : AtSentinel s) : DecoderMove s s.finish

theorem exec_decoderMove {i : Instr} {s t : State} (h : exec i s = .next t) : DecoderMove s t := by
  cases i with
  | flux1 b =>
    obtain ⟨-, -, rfl⟩ := execFlux1_eq_next.mp h
    exact .emitFlux _ _
  | flux2 b e =>
    obtain ⟨-, ⟨-, rfl⟩ | ⟨-, -, rfl⟩⟩ := execFlux2_eq_next.mp h
    · exact .raise _ (.inr rfl)
    · exact .emitFlux _ _
  | index b0 b1 b2 b3 =>
    obtain ⟨-, ⟨-, rfl⟩ | ⟨-, -, rfl⟩⟩ := execIndex_eq_next.mp h
    · exact .raise _ (.inr rfl)
    · exact .emitIndex _
  | space b0 b1 b2 b3 =>
    obtain ⟨-, ⟨-, rfl⟩ | ⟨-, -, rfl⟩⟩ := execSpace_eq_next.mp h
    · exact .raise _ (.inr rfl)
    · exact .addSpace _
  | reservedEscape0 =>
    obtain ⟨-, ⟨-, rfl⟩ | ⟨-, rfl⟩⟩ := execReservedEscape0_eq_next.mp h
    · exact .raise _ (.inr rfl)
    · exact .raise _ (.inl rfl)
  | reservedEscape op =>
    obtain ⟨-, ⟨-, rfl⟩ | ⟨-, rfl⟩⟩ := execReservedEscape_eq_next.mp h
    · exact .raise _ (.inr rfl)
    · exact .raise _ (.inl rfl)
  | endOfStream =>
    obtain ⟨hs, rfl⟩ := execEndOfStream_eq_next.mp h
    exact .finish hs

theorem decoderStep_decoderMove {s t : State} (hr : s.status = .run) (h : decoderStep s = .next t) :
    DecoderMove s t := by
  obtain ⟨hne, -⟩ | ⟨-, i, -, he⟩ | ⟨-, -, rfl⟩ := decoderStep_cases h
  · exact absurd hr hne
  · exact exec_decoderMove he
  · exact .raise _ (.inr rfl)

/-- A decoder's step from `RUN` that ends in `ERR` has taken a fault: no other step sets that status. -/
theorem eq_raise_of_decoderStep {s t : State} (hr : s.status = .run) (h : decoderStep s = .next t)
    (herr : t.status = .err) :
    ∃ k info, (k = .unknownOpcode ∨ k = .unexpectedEndOfStream) ∧ t = s.raise k info := by
  cases decoderStep_decoderMove hr h with
  | emitFlux n k => simp [hr] at herr
  | emitIndex v => simp [hr] at herr
  | addSpace v => simp [hr] at herr
  | raise info hk => exact ⟨_, info, hk, rfl⟩
  | finish _ => simp at herr

/-- Settles O38: a step that does not fault appends to one queue at most, one entry. -/
theorem queuesOnlyGrow : Obligations.QueuesOnlyGrow := by
  intro s t hin hr hstep hne
  rw [step_decoder hin] at hstep
  cases decoderStep_decoderMove hr hstep with
  | emitFlux n k => exact ⟨List.prefix_append _ _, List.prefix_rfl, by simp; omega⟩
  | emitIndex v => exact ⟨List.prefix_rfl, List.prefix_append _ _, by simp; omega⟩
  | addSpace v => exact ⟨List.prefix_rfl, List.prefix_rfl, Nat.le_succ _⟩
  | raise info _ => exact absurd rfl hne
  | finish _ => exact ⟨List.prefix_rfl, List.prefix_rfl, Nat.le_succ _⟩

/-! ### The buffer in `RUN` -/

theorem decoderStep_buffer {s t : State} (h : decoderStep s = .next t) :
    t.len = s.len ∧ t.bufSeed = s.bufSeed ∧ ∀ a, t.byteAt a = s.byteAt a := by
  by_cases hr : s.status = .run
  · cases decoderStep_decoderMove hr h <;> exact ⟨rfl, rfl, fun _ => rfl⟩
  · rw [decoderStep_waits hr, Host.Outcome.next.injEq] at h
    exact h ▸ ⟨rfl, rfl, fun _ => rfl⟩

/-- In `RUN` the host's writes are refused; of its other moves reset alone touches the buffer. -/
theorem serveHost_buffer {a : HostAction} {s t : State} (hr : s.status = .run) (ha : a ≠ .reset)
    (h : serveHost a s = .next t) : t.len = s.len ∧ t.bufSeed = s.bufSeed ∧ ∀ x, t.byteAt x = s.byteAt x := by
  obtain ⟨hne, -⟩ | ⟨hne, -⟩ | ⟨hne, -⟩ | ⟨-, rfl⟩ | ⟨ha', -⟩ | ⟨-, hd⟩ := serveHost_cases h
  · exact absurd hr hne
  · exact absurd hr hne
  · exact absurd hr hne
  · exact ⟨rfl, rfl, fun _ => rfl⟩
  · exact absurd ha' ha
  · exact decoderStep_buffer hd

/-- Settles O39: the decoder writes no input of the host's, and in `RUN` the host's own writes are refused. -/
theorem bufferStaysWhileRunning : Obligations.BufferStaysWhileRunning := by
  intro s t hr hhead hstep
  cases hin : s.inbox with
  | nil => exact decoderStep_buffer (step_decoder hin ▸ hstep)
  | cons a rest =>
    have ha : a ≠ .reset := by simpa [hin] using hhead
    exact serveHost_buffer (s := { s with inbox := rest }) hr ha (step_host hin ▸ hstep)

/-! ### What the host sees of the queues -/

theorem hostView_queues_of_run {s : State} (hr : s.status = .run) : s.hostView.queues = none := if_pos hr

theorem hostView_queues_outside_run {s : State} (hr : s.status ≠ .run) :
    s.hostView.queues = some (s.fluxq, s.indexq) := if_neg hr

/-- At the sentinel the decoder's step is END (40_start_dispatch_end R73). -/
theorem decoderStep_atSentinel {s : State} (h : AtSentinel s) : decoderStep s = .next s.finish := by
  have hrem : s.remaining = 0 := by have := h.2; unfold State.remaining; omega
  have hfetch : fetch s = .ok .endOfStream := fetch_eq_ok.mpr ⟨Nat.lt_of_succ_le h.2.le, by simp [hrem]⟩
  rw [decoderStep_run h.1, hfetch]
  exact execEndOfStream_eq_next.mpr ⟨h, rfl⟩

/-- Settles O45: END lifts the cover off the queues as they stand, and a fault does so after it has emptied both. -/
theorem queuesCommitTogether : Obligations.QueuesCommitTogether := by
  refine ⟨fun s hin hs => ?_, fun s t hin hr hstep herr => ?_⟩
  · refine ⟨s.finish, ?_, hostView_queues_of_run hs.1, hostView_queues_outside_run (s := s.finish) (by simp)⟩
    rw [step_decoder hin, decoderStep_atSentinel hs]
  · obtain ⟨k, info, -, rfl⟩ := eq_raise_of_decoderStep hr (step_decoder hin ▸ hstep) herr
    exact ⟨hostView_queues_of_run hr, hostView_queues_outside_run (s := s.raise k info) (by simp)⟩

end Sys2Proof.Machine
end

section
/-! The bytes that decide what the decoder reads: those that spell a byte-code, and of a byte-code cut off by the sentinel
those that show it to be one (20_memory R35, 60_exceptions R113). -/
namespace Sys2Proof

theorem encode_length (i : Instr) : (encode i).length = byteLength i := by
  cases i <;> rfl

theorem decodeEscape_index {rem : Nat} {b0 b1 b2 b3 : Byte} {tail : List Byte} (h : 6 ≤ rem) :
    decodeEscape rem Config.opIndex (b0 :: b1 :: b2 :: b3 :: tail) = .ok (.index b0 b1 b2 b3) := by
  simp [decodeEscape, decodeOperands, Nat.not_lt.mpr h]

theorem decodeEscape_space {rem : Nat} {b0 b1 b2 b3 : Byte} {tail : List Byte} (h : 6 ≤ rem) :
    decodeEscape rem Config.opSpace (b0 :: b1 :: b2 :: b3 :: tail) = .ok (.space b0 b1 b2 b3) := by
  have hne : Config.opSpace ≠ Config.opIndex := by decide
  simp [decodeEscape, decodeOperands, hne, Nat.not_lt.mpr h]

theorem decodeEscape_reserved {rem : Nat} {op : Byte} {tail : List Byte} (h : 3 ≤ op.toNat) :
    decodeEscape rem op tail = .ok (.reservedEscape op) := by
  have h0 : op ≠ 0 := by rintro rfl; simp at h
  have h1 : op ≠ Config.opIndex := by rintro rfl; simp [Config.opIndex] at h
  have h2 : op ≠ Config.opSpace := by rintro rfl; simp [Config.opSpace] at h
  rw [decodeEscape, if_neg h1, if_neg h2, if_neg h0]

/-- The bytes that spell a byte-code decide the read, whatever follows them. -/
theorem decode_encode_append {i : Instr} {rem : Nat} (hwf : WellFormed i) (hfit : FitsBefore i rem)
    (rest : List Byte) : decode rem (encode i ++ rest) = .ok i := by
  cases i with
  | flux1 b => exact decode_flux1 (Nat.one_le_iff_ne_zero.mp hfit) hwf
  | flux2 b e => exact decode_flux2 hfit hwf.1 hwf.2
  | index b0 b1 b2 b3 => exact (decode_escape (le_trans (by decide) hfit) rfl).trans (decodeEscape_index hfit)
  | space b0 b1 b2 b3 => exact (decode_escape (le_trans (by decide) hfit) rfl).trans (decodeEscape_space hfit)
  | reservedEscape0 => exact (decode_escape hfit rfl).trans rfl
  | reservedEscape op => exact (decode_escape hfit rfl).trans (decodeEscape_reserved hwf)
  | endOfStream =>
    obtain rfl : rem = 0 := hfit
    exact decode_zero _

/-- What is read, but for END, is spelled by the first bytes. -/
theorem encode_prefix_of_decode {i : Instr} {rem : Nat} {bytes : List Byte} (h : decode rem bytes = .ok i)
    (hi : i ≠ .endOfStream) : encode i <+: bytes := by
  obtain ⟨-, rfl⟩ | ⟨-, b, tail, rfl, -, rfl⟩ | ⟨-, b, c, tail, rfl, -, -, rfl⟩ | ⟨-, c, tail, rfl, he⟩ :=
    decode_cases h
  · exact absurd rfl hi
  · exact ⟨tail, rfl⟩
  · exact ⟨tail, rfl⟩
  · obtain ⟨rfl, -, b0, b1, b2, b3, tl, rfl, rfl⟩ | ⟨rfl, -, b0, b1, b2, b3, tl, rfl, rfl⟩ | ⟨rfl, rfl⟩ | ⟨-, rfl⟩ :=
      decodeEscape_cases he
    · exact ⟨tl, rfl⟩
    · exact ⟨tl, rfl⟩
    · exact ⟨tail, rfl⟩
    · exact ⟨tail, rfl⟩

theorem decodeOperands_eq_truncated {rem : Nat} {form : Byte → Byte → Byte → Byte → Instr} {l : List Byte} :
    decodeOperands rem form l = .error .truncated ↔ rem < 6 := by
  unfold decodeOperands
  split
  · next h => simp [h]
  · next h => split <;> simp [h]

/-- A known opcode whose operand the sentinel cuts off, and nothing else after an escape, is truncated. -/
theorem decodeEscape_eq_truncated {rem : Nat} {op : Byte} {l : List Byte} :
    decodeEscape rem op l = .error .truncated ↔ (op = 1 ∨ op = 2) ∧ rem < 6 := by
  unfold decodeEscape
  split
  · next h1 => simp [decodeOperands_eq_truncated, show op = 1 from h1]
  · next h1 =>
    split
    · next h2 => simp [decodeOperands_eq_truncated, show op = 2 from h2]
    · next h2 =>
      have hop : ¬ (op = 1 ∨ op = 2) := not_or.mpr ⟨h1, h2⟩
      exact iff_of_false (by split <;> simp) fun h => hop h.1

/-- The truncated byte-codes are those of R113's table. -/
theorem decode_eq_truncated {rem : Nat} {bytes : List Byte} :
    decode rem bytes = .error .truncated ↔
      (rem = 1 ∧ ∃ b tail, bytes = b :: tail ∧ 250 ≤ b.toNat) ∨
      (2 ≤ rem ∧ rem < 6 ∧ ∃ c tail, bytes = 255 :: c :: tail ∧ (c = 1 ∨ c = 2)) := by
  constructor
  · intro h
    unfold decode at h
    split at h
    · simp at h
    · split at h
      · simp at h
      · next b tail =>
        split at h
        · simp at h
        · next hb =>
          split at h
          · exact .inl ⟨by omega, b, tail, rfl, by omega⟩
          · split at h
            · simp at h
            · next c operands =>
              split at h
              · simp at h
              · next hb' =>
                obtain ⟨hc, h6⟩ := decodeEscape_eq_truncated.mp h
                have hb255 : b = 255 := BitVec.eq_of_toNat_eq (by have := b.isLt; simp; omega)
                exact .inr ⟨by omega, h6, c, operands, by rw [hb255], hc⟩
  · rintro (⟨rfl, b, tail, rfl, hb⟩ | ⟨h2, h6, c, tail, rfl, hc⟩)
    · exact decode_truncated_lead hb
    · exact (decode_escape h2 rfl).trans (decodeEscape_eq_truncated.mpr ⟨hc, h6⟩)

/-- The lead byte and, where there is one, the opcode byte show that a byte-code is truncated. -/
theorem truncated_decided {rem : Nat} {bytes : List Byte} (h : decode rem bytes = .error .truncated) :
    ∃ p, p.length = min 2 rem ∧ p <+: bytes ∧ ∀ rest, decode rem (p ++ rest) = .error .truncated := by
  obtain ⟨rfl, b, tail, rfl, hb⟩ | ⟨h2, h6, c, tail, rfl, hc⟩ := decode_eq_truncated.mp h
  · exact ⟨[b], rfl, ⟨tail, rfl⟩, fun _ => decode_truncated_lead hb⟩
  · refine ⟨[255, c], by simp [h2], ⟨tail, rfl⟩, fun rest => ?_⟩
    exact decode_eq_truncated.mpr (.inr ⟨h2, h6, c, rest, rfl, hc⟩)

end Sys2Proof

namespace Sys2Proof.Machine

theorem bytesRead_of_byteCode {s : State} {i : Instr} (h : fetch s = .ok i) (hi : i ≠ .endOfStream) :
    s.bytesRead = byteLength i := by
  unfold State.bytesRead
  rw [h]
  cases i with
  | endOfStream => exact absurd rfl hi
  | _ => rfl

theorem bytesRead_of_end {s : State} (h : fetch s = .ok .endOfStream) : s.bytesRead = 0 := by
  simp [State.bytesRead, h]

theorem bytesRead_of_truncated {s : State} (h : fetch s = .error .truncated) :
    s.bytesRead = min 2 s.remaining := by
  simp [State.bytesRead, h]

theorem bytesRead_of_noByteCode {s : State} (h : fetch s = .error .noByteCode) : s.bytesRead = 0 := by
  simp [State.bytesRead, h]

/-- The first `bytesRead` bytes at `pc` decide the fetch in any state with the same cursor and LEN. -/
theorem fetch_decided (s : State) :
    ∃ p, p.length = s.bytesRead ∧ p <+: s.window ∧
      ∀ t : State, t.len = s.len → t.pc = s.pc → p <+: t.window → fetch t = fetch s := by
  have hrem {t : State} (hl : t.len = s.len) (hp : t.pc = s.pc) : t.remaining = s.remaining := by
    simp only [State.remaining, hl, hp]
  cases hf : fetch s with
  | ok i =>
    obtain ⟨hpc, hd⟩ := fetch_eq_ok.mp hf
    by_cases hi : i = .endOfStream
    · subst hi
      have h0 : s.remaining = 0 := (fetch_sound hf).2
      refine ⟨[], (bytesRead_of_end hf).symm, List.nil_prefix, fun t hl hp _ => fetch_eq_ok.mpr ⟨by omega, ?_⟩⟩
      rw [hrem hl hp, h0, decode_zero]
    · refine ⟨encode i, by rw [encode_length, bytesRead_of_byteCode hf hi], encode_prefix_of_decode hd hi, ?_⟩
      rintro t hl hp ⟨rest, hrest⟩
      obtain ⟨hwf, hfit⟩ := fetch_sound hf
      exact fetch_eq_ok.mpr ⟨by omega, by rw [hrem hl hp, ← hrest, decode_encode_append hwf hfit]⟩
  | error e =>
    cases e with
    | truncated =>
      obtain ⟨hpc, hd⟩ := fetch_eq_truncated.mp hf
      obtain ⟨p, hlen, hprefix, hdecided⟩ := truncated_decided hd
      refine ⟨p, by rw [hlen, bytesRead_of_truncated hf], hprefix, ?_⟩
      rintro t hl hp ⟨rest, hrest⟩
      exact fetch_eq_truncated.mpr ⟨by omega, by rw [hrem hl hp, ← hrest, hdecided]⟩
    | noByteCode =>
      have hpc := fetch_eq_noByteCode.mp hf
      exact ⟨[], (bytesRead_of_noByteCode hf).symm, List.nil_prefix, fun t hl hp _ =>
        fetch_eq_noByteCode.mpr (by omega)⟩

/-- The bytes that decide the fetch lie before the sentinel (20_memory R37). -/
theorem bytesRead_le_remaining (s : State) : s.bytesRead ≤ s.remaining := by
  obtain ⟨p, hlen, hprefix, -⟩ := fetch_decided s
  have hwindow : p.length ≤ min 6 s.remaining := by simpa [State.window] using hprefix.length_le
  omega

/-- Bytes a run begins with also begin the run of a state that holds the same bytes at their addresses. -/
theorem prefix_bytesFrom_congr {s t : State} {a n : Nat} {p : List Byte} (hp : p <+: s.bytesFrom a n)
    (h : ∀ x, a ≤ x → x < a + p.length → t.byteAt x = s.byteAt x) : p <+: t.bytesFrom a n := by
  have hle : p.length ≤ n := by simpa using hp.length_le
  have hsplit (u : State) : u.bytesFrom a p.length <+: u.bytesFrom a n :=
    ⟨u.bytesFrom (a + p.length) (n - p.length), by rw [← bytesFrom_add, Nat.add_sub_cancel' hle]⟩
  have heq : p = s.bytesFrom a p.length :=
    (List.prefix_of_prefix_length_le hp (hsplit s) (by simp)).eq_of_length (by simp)
  rw [heq, ← bytesFrom_congr h]
  exact hsplit t

theorem fetch_congr {s t : State} (hl : t.len = s.len) (hp : t.pc = s.pc)
    (h : ∀ a, s.pc ≤ a → a < s.pc + s.bytesRead → t.byteAt a = s.byteAt a) : fetch t = fetch s := by
  obtain ⟨p, hlen, hprefix, hdecided⟩ := fetch_decided s
  have hwindow : t.window = t.bytesFrom s.pc (min 6 s.remaining) := by
    simp only [State.window, State.remaining, hl, hp]
  exact hdecided t hl hp (hwindow ▸ prefix_bytesFrom_congr hprefix (hlen ▸ h))

/-! ### The same step on another buffer -/

/-- `s` with another buffer in the place of its own. -/
def State.withBuffer (s : State) (m : Memory) (seed : Nat) : State := { s with buf := m, bufSeed := seed }

/-- `f` on the next state of an outcome. -/
def mapNext (f : State → State) (r : Result) : Result :=
  match r with
  | .next s => .next (f s)
  | .fault x => .fault x
  | .refused x => .refused x

@[simp] theorem mapNext_next (f : State → State) (s : State) : mapNext f (.next s) = .next (f s) := rfl
@[simp] theorem mapNext_fault (f : State → State) (x : Fault) : mapNext f (.fault x) = .fault x := rfl
@[simp] theorem mapNext_refused (f : State → State) (x : Refusal) : mapNext f (.refused x) = .refused x := rfl

section
variable (s : State) (m : Memory) (seed : Nat)

theorem needBytes_withBuffer (n : Nat) (e : Result) :
    needBytes n (s.withBuffer m seed) (mapNext (·.withBuffer m seed) e) =
      mapNext (·.withBuffer m seed) (needBytes n s e) := by
  simp only [needBytes, apply_ite (mapNext _)]
  rfl

theorem commit_withBuffer (fits : Bool) (t : State) :
    commit fits (t.withBuffer m seed) = mapNext (·.withBuffer m seed) (commit fits t) := by
  cases fits <;> rfl

/-- The shape of the four byte-codes: what they test and what they lead to does not depend on the buffer. -/
theorem needBytes_commit_withBuffer (n : Nat) (fits : Bool) (t : State) :
    needBytes n (s.withBuffer m seed) (commit fits (t.withBuffer m seed)) =
      mapNext (·.withBuffer m seed) (needBytes n s (commit fits t)) := by
  rw [commit_withBuffer, needBytes_withBuffer]

theorem execEndOfStream_withBuffer :
    execEndOfStream (s.withBuffer m seed) = mapNext (·.withBuffer m seed) (execEndOfStream s) := by
  simp only [execEndOfStream, apply_ite (mapNext _)]
  rfl

/-- No meaning reads the buffer: the decoder has taken its bytes from there before. -/
theorem exec_withBuffer (i : Instr) :
    exec i (s.withBuffer m seed) = mapNext (·.withBuffer m seed) (exec i s) := by
  cases i with
  | flux1 b =>
    exact needBytes_commit_withBuffer s m seed 1 (emitFluxFits (flux1Imm b) s) ((emitFlux (flux1Imm b) s).advance 1)
  | flux2 b e =>
    exact needBytes_commit_withBuffer s m seed 2 (emitFluxFits (flux2Imm b e) s) ((emitFlux (flux2Imm b e) s).advance 2)
  | index b0 b1 b2 b3 =>
    exact needBytes_commit_withBuffer s m seed 6 (emitIndexFits (u28 b0 b1 b2 b3) s)
      ((emitIndex (u28 b0 b1 b2 b3) s).advance 6)
  | space b0 b1 b2 b3 =>
    exact needBytes_commit_withBuffer s m seed 6 (addSpaceFits (u28 b0 b1 b2 b3) s)
      ((addSpace (u28 b0 b1 b2 b3) s).advance 6)
  | reservedEscape0 => exact needBytes_withBuffer s m seed 2 (.next (s.raise .unknownOpcode 0))
  | reservedEscape op => exact needBytes_withBuffer s m seed 2 (.next (s.raise .unknownOpcode op))
  | endOfStream => exact execEndOfStream_withBuffer s m seed

/-- On a buffer from which the same is fetched the decoder's step from `RUN` does the same. -/
theorem decoderStep_withBuffer (hr : s.status = .run) (hf : fetch (s.withBuffer m seed) = fetch s) :
    decoderStep (s.withBuffer m seed) = mapNext (·.withBuffer m seed) (decoderStep s) := by
  rw [decoderStep_run hr, decoderStep_run (s := s.withBuffer m seed) hr, hf]
  split
  · exact exec_withBuffer s m seed _
  · rfl
  · rfl

end

/-- Settles O40: the bytes read decide the fetch, and of the buffer the step has nothing but the fetch. -/
theorem stepReadsOnlyItsOwnBytes : Obligations.StepReadsOnlyItsOwnBytes := by
  rintro s t m seed hin hr rfl hbytes
  have hfetch : fetch (s.withBuffer m seed) = fetch s := fetch_congr rfl rfl hbytes
  have hsame : step (s.withBuffer m seed) = mapNext (·.withBuffer m seed) (step s) := by
    rw [step_decoder hin, step_decoder (s := s.withBuffer m seed) hin, decoderStep_withBuffer s m seed hr hfetch]
  exact ⟨bytesRead_le_remaining s, fun u hu => hsame.trans (by rw [hu]; rfl),
    fun r hu => hsame.trans (by rw [hu]; rfl), fun f hu => hsame.trans (by rw [hu]; rfl)⟩

end Sys2Proof.Machine
end

section
/-! Decoder and encoder against each other, and the two maps of 30_encoding R54 and R55. -/
namespace Sys2Proof

/-- Settles O25: `decode_encode_append`, one case per row. -/
theorem decodeOfEncodeIsTheInstruction : Obligations.DecodeOfEncodeIsTheInstruction :=
  fun _ _ rest hwf hfit => decode_encode_append hwf hfit rest

/-- Settles O26: `decode_sound` has the constraints and the place, `encode_prefix_of_decode` the bytes. -/
theorem decodedInstructionIsSpelledByItsBytes : Obligations.DecodedInstructionIsSpelledByItsBytes := by
  intro i rem bytes h
  obtain ⟨hwf, hfit⟩ := decode_sound h
  exact ⟨hwf, hfit, encode_prefix_of_decode h⟩

/-- The opcode map where six bytes lie before the sentinel: no opcode is cut off. -/
theorem decodeEscape_eq_ok_of_room {rem : Nat} (h : 6 ≤ rem) (op o0 o1 o2 o3 : Byte) (rest : List Byte) :
    decodeEscape rem op (o0 :: o1 :: o2 :: o3 :: rest) = .ok (
      if op = 1 then .index o0 o1 o2 o3
      else if op = 2 then .space o0 o1 o2 o3
      else if op = 0 then .reservedEscape0
      else .reservedEscape op) := by
  have hroom : ¬ rem < 6 := by omega
  simp only [decodeEscape, decodeOperands, Config.opIndex, Config.opSpace, hroom, if_false, apply_ite Except.ok]

/-- Settles O27: the three ranges of the lead byte, the last of which is 255 alone and leads to the opcode map. -/
theorem leadByteAndOpcodeSelect : Obligations.LeadByteAndOpcodeSelect := by
  intro rem b c o0 o1 o2 o3 rest hrem
  by_cases hlow : b.toNat ≤ 249
  · rw [if_pos hlow]
    exact decode_flux1 (by omega) hlow
  rw [if_neg hlow]
  by_cases hmid : b.toNat ≤ 254
  · rw [if_pos hmid]
    exact decode_flux2 (by omega) (by omega) hmid
  · rw [if_neg hmid, decode_escape (by omega) (by omega)]
    exact decodeEscape_eq_ok_of_room hrem c o0 o1 o2 o3 rest

/-- Settles O24: the decoder run on each word. -/
theorem writtenWordsDecode : Obligations.WrittenWordsDecode :=
  ⟨rfl, rfl, rfl, rfl, rfl, rfl, rfl⟩

end Sys2Proof
end

section
/-! The packed operand and its inverses, and what the reserved bits do not do (30_encoding R59, R60, R63). -/
namespace Sys2Proof.Machine

/-- Settles O28: each byte halved is below 128. -/
theorem packedOperandIsTheSumOfItsGroups : Obligations.PackedOperandIsTheSumOfItsGroups := by
  intro b0 b1 b2 b3
  have hsum := u28_eq_sum b0 b1 b2 b3
  exact ⟨hsum, by omega⟩

/-- The seven value bits of each operand byte, read back from the operand. -/
theorem u28_groups (b0 b1 b2 b3 : Byte) :
    u28 b0 b1 b2 b3 % 128 = b0.toNat / 2 ∧ (u28 b0 b1 b2 b3 >>> 7) % 128 = b1.toNat / 2 ∧
      (u28 b0 b1 b2 b3 >>> 14) % 128 = b2.toNat / 2 ∧ (u28 b0 b1 b2 b3 >>> 21) % 128 = b3.toNat / 2 := by
  have hsum := u28_eq_sum b0 b1 b2 b3
  simp only [Nat.shiftRight_eq_div_pow]
  refine ⟨?_, ?_, ?_, ?_⟩ <;> omega

/-- Packing and then unpacking, whatever the reserved bits. -/
theorem u28_packByte {v : Nat} (hv : v < 2 ^ 28) (r0 r1 r2 r3 : Bool) :
    u28 (packByte v r0) (packByte (v >>> 7) r1) (packByte (v >>> 14) r2) (packByte (v >>> 21) r3) = v := by
  have half (w : Nat) (r : Bool) : (packByte w r).toNat / 2 = w % 128 := by
    rw [packByte_toNat]
    have := r.toNat_lt
    omega
  simp only [u28_eq_sum, half, Nat.shiftRight_eq_div_pow]
  omega

/-- A byte is its seven value bits over its own reserved bit. -/
theorem packByte_own_bit {v : Nat} {b : Byte} (h : v % 128 = b.toNat / 2) : packByte v (b.getLsbD 0) = b := by
  have hbit : (b.getLsbD 0).toNat = b.toNat % 2 := by
    rw [BitVec.getLsbD, Nat.toNat_testBit]
    simp
  apply BitVec.eq_of_toNat_eq
  rw [packByte_toNat, h, hbit]
  omega

theorem packByte_false {v : Nat} {b : Byte} (h : v % 128 = b.toNat / 2) : packByte v false = b &&& 0xFE := by
  apply BitVec.eq_of_toNat_eq
  rw [packByte_toNat, h, BitVec.toNat_and]
  exact (and_mask b.toNat b.isLt).symm

/-- Settles O29: group by group, the value bits from `u28_groups` over the reserved bit asked for. -/
theorem packingInvertsUnpacking : Obligations.PackingInvertsUnpacking := by
  refine ⟨fun v r0 r1 r2 r3 hv => ⟨_, _, _, _, rfl, u28_packByte hv r0 r1 r2 r3⟩, fun b0 b1 b2 b3 => ?_,
    fun b0 b1 b2 b3 => ?_⟩
  · obtain ⟨h0, h1, h2, h3⟩ := u28_groups b0 b1 b2 b3
    rw [p28r, packByte_own_bit h0, packByte_own_bit h1, packByte_own_bit h2, packByte_own_bit h3]
  · obtain ⟨h0, h1, h2, h3⟩ := u28_groups b0 b1 b2 b3
    rw [p28, p28r, packByte_false h0, packByte_false h1, packByte_false h2, packByte_false h3]

/-- Settles O31: the two meanings have the operand bytes only through their operand, which is made of bits 7..1. -/
theorem reservedBitsAreIgnored : Obligations.ReservedBitsAreIgnored := by
  intro b0 b1 b2 b3 c0 c1 c2 c3 s h0 h1 h2 h3
  have hval : u28 b0 b1 b2 b3 = u28 c0 c1 c2 c3 := by rw [u28_eq_sum, u28_eq_sum, h0, h1, h2, h3]
  constructor
  · simp only [exec, execIndex, hval]
  · simp only [exec, execSpace, hval]

end Sys2Proof.Machine
end

section
/-! The immediates of FLUX2: the bands of 30_encoding R58, and the assembler's spelling of each (R64). -/
namespace Sys2Proof.Machine

theorem flux2Imm_bounds {b e : Byte} (h : WellFormed (.flux2 b e)) : 249 ≤ flux2Imm b e ∧ flux2Imm b e ≤ 1524 := by
  obtain ⟨hlo, hhi⟩ := h
  unfold flux2Imm
  omega

/-- The assembler's bytes of a FLUX2 are a well-formed one with the immediate asked for and `e` in 1..255. -/
theorem flux2Bytes_spell {n : Nat} (hlo : 250 ≤ n) (hhi : n ≤ 1524) :
    ∃ b e : Byte, flux2Bytes n = [b, e] ∧ WellFormed (.flux2 b e) ∧ e ≠ 0 ∧ flux2Imm b e = n := by
  have hb : (BitVec.ofNat 8 (250 + (n - 250) / 255)).toNat = 250 + (n - 250) / 255 :=
    Nat.mod_eq_of_lt (by omega)
  have he : (BitVec.ofNat 8 (1 + (n - 250) % 255)).toNat = 1 + (n - 250) % 255 :=
    Nat.mod_eq_of_lt (by omega)
  refine ⟨_, _, rfl, ⟨?_, ?_⟩, ?_, ?_⟩
  · rw [hb]; omega
  · rw [hb]; omega
  · intro h
    have hzero : 1 + (n - 250) % 255 = 0 := he.symm.trans (congrArg BitVec.toNat h)
    omega
  · rw [flux2Imm, hb, he]; omega

/-- With `e` in 1..255 the bands do not overlap. -/
theorem flux2Imm_inj {b e b' e' : Byte} (h : WellFormed (.flux2 b e)) (h' : WellFormed (.flux2 b' e')) (he : e ≠ 0)
    (he' : e' ≠ 0) (heq : flux2Imm b' e' = flux2Imm b e) : b' = b ∧ e' = e := by
  obtain ⟨hlo, -⟩ := h
  obtain ⟨hlo', -⟩ := h'
  have hpos : e.toNat ≠ 0 := fun h0 => he (BitVec.eq_of_toNat_eq h0)
  have hpos' : e'.toNat ≠ 0 := fun h0 => he' (BitVec.eq_of_toNat_eq h0)
  unfold flux2Imm at heq
  have hb : b'.toNat = b.toNat := by omega
  exact ⟨BitVec.eq_of_toNat_eq hb, BitVec.eq_of_toNat_eq (by omega)⟩

/-- Settles O30: the bounds, the assembler's spelling as the pair that is there, and its uniqueness. -/
theorem flux2ImmediatesTileTheBands : Obligations.Flux2ImmediatesTileTheBands := by
  refine ⟨fun b e h => ?_, fun n hlo hhi => ?_⟩
  · obtain ⟨hmin, hmax⟩ := flux2Imm_bounds h
    have hzero : flux2Imm b 0 = 250 + (b.toNat - 250) * 255 + 0 - 1 := rfl
    exact ⟨rfl, hmin, hmax, by omega⟩
  · obtain ⟨b, e, -, hwf, he, hn⟩ := flux2Bytes_spell hlo hhi
    exact ⟨b, e, ⟨hwf, he, hn⟩, fun b' e' hwf' he' hn' => flux2Imm_inj hwf hwf' he he' (hn'.trans hn.symm)⟩

end Sys2Proof.Machine
end

section
/-! The pseudo-instruction FLUX n (30_encoding R65): one closing flux byte-code, and SPACEs put before it. -/
namespace Sys2Proof.Machine

/-- `p` assembles, and in R140's loop its bytes append the one interval `ACC + n` and clear ACC, whatever follows. -/
def EmitsInterval (p : List Stmt) (n : Nat) : Prop :=
  ∃ bs, assemble p = some bs ∧
    ∀ (rest : List Byte) (acc : Nat) (tsi : Int) (flux : List Nat) (index : List Int),
      decodeLoop (bs ++ rest) acc tsi flux index
        = decodeLoop rest 0 (tsi + (acc + n)) (flux ++ [acc + n]) index

theorem assemble_cons {x : Stmt} {p : List Stmt} {bs more : List Byte} (hx : assembleStmt x = some bs)
    (hp : assemble p = some more) : assemble (x :: p) = some (bs ++ more) := by
  simp only [assemble, hx, hp]

theorem assembleStmt_space {v : Nat} (hv : v ≤ maxOperand) :
    ∃ b0 b1 b2 b3 : Byte, assembleStmt (.space v) = some [255, 2, b0, b1, b2, b3] ∧ u28 b0 b1 b2 b3 = v := by
  have hlt : v < 2 ^ 28 := by unfold maxOperand at hv; omega
  exact ⟨_, _, _, _, if_pos hv, u28_packByte hlt false false false false⟩

theorem emitsInterval_flux1 {n : Nat} (hn : n ≤ 249) : EmitsInterval [.flux1 n] n := by
  have hb : (BitVec.ofNat 8 n).toNat = n := Nat.mod_eq_of_lt (by omega)
  have hx : assembleStmt (.flux1 n) = some [BitVec.ofNat 8 n] := if_pos hn
  refine ⟨_, assemble_cons hx rfl, fun rest acc tsi flux index => ?_⟩
  rw [List.append_nil, List.singleton_append, decodeLoop_flux1 (by omega), hb, Nat.cast_add]

theorem emitsInterval_flux2 {n : Nat} (hlo : 250 ≤ n) (hhi : n ≤ 1524) : EmitsInterval [.flux2 n] n := by
  obtain ⟨b, e, hbytes, ⟨hb, hb'⟩, -, himm⟩ := flux2Bytes_spell hlo hhi
  have hx : assembleStmt (.flux2 n) = some [b, e] := (if_pos ⟨hlo, hhi⟩).trans (congrArg some hbytes)
  refine ⟨_, assemble_cons hx rfl, fun rest acc tsi flux index => ?_⟩
  rw [List.append_nil, List.cons_append, List.singleton_append, decodeLoop_flux2 hb hb', himm, Nat.cast_add]

/-- A SPACE put before lengthens the interval by its operand. -/
theorem EmitsInterval.cons_space {p : List Stmt} {n v : Nat} (h : EmitsInterval p n) (hv : v ≤ maxOperand) :
    EmitsInterval (.space v :: p) (v + n) := by
  obtain ⟨more, hmore, hloop⟩ := h
  obtain ⟨b0, b1, b2, b3, hspace, hval⟩ := assembleStmt_space hv
  refine ⟨[255, 2, b0, b1, b2, b3] ++ more, assemble_cons hspace hmore, fun rest acc tsi flux index => ?_⟩
  calc decodeLoop ([255, 2, b0, b1, b2, b3] ++ more ++ rest) acc tsi flux index
      = decodeLoop (more ++ rest) (acc + v) tsi flux index := by
        rw [← hval]; exact decodeLoop_space rfl
    _ = decodeLoop rest 0 (tsi + (acc + (v + n : Nat))) (flux ++ [acc + (v + n)]) index := by
        rw [hloop, Nat.add_assoc, Nat.cast_add, Nat.cast_add, Int.add_assoc]

theorem EmitsInterval.replicate_space {p : List Stmt} {n : Nat} (h : EmitsInterval p n) (k : Nat) :
    EmitsInterval (List.replicate k (.space maxOperand) ++ p) (k * maxOperand + n) := by
  induction k with
  | zero => simpa using h
  | succ k ih =>
    have hlen : (k + 1) * maxOperand + n = maxOperand + (k * maxOperand + n) := by ring
    rw [hlen, List.replicate_succ, List.cons_append]
    exact ih.cons_space le_rfl

/-- Settles O32: the rows of R65's table; in the last the SPACEs and the closing FLUX1 249 add up to `n`. -/
theorem pseudoFluxEmitsOneInterval : Obligations.PseudoFluxEmitsOneInterval := by
  intro n
  change EmitsInterval (fluxStmts n) n
  unfold fluxStmts
  split
  · next h => exact emitsInterval_flux1 h
  · split
    · next h1 h2 => exact emitsInterval_flux2 (by omega) h2
    · next h1 h2 =>
      have hrest : n - fullSpaces n * maxOperand - 249 ≤ maxOperand := by unfold fullSpaces maxOperand; omega
      have htotal : fullSpaces n * maxOperand + (n - fullSpaces n * maxOperand - 249 + 249) = n := by
        unfold fullSpaces maxOperand; omega
      have hemits := ((emitsInterval_flux1 le_rfl).cons_space hrest).replicate_space (fullSpaces n)
      rwa [htotal] at hemits

end Sys2Proof.Machine
end

section
/-! One step at START and at the sentinel, and the decoder's step where a byte-code is fetched
(40_start_dispatch_end R70, R71, R72, R73). -/
namespace Sys2Proof.Machine

theorem decoderStep_of_fetch {s : State} {i : Instr} (hr : s.status = .run) (hf : fetch s = .ok i) :
    decoderStep s = exec i s := by
  rw [decoderStep_run hr, hf]

/-- Settles O14: both moves are the decoder's, and what it fetches does not depend on the inbox. -/
theorem stepRunsTheDecodedByteCode : Obligations.StepRunsTheDecodedByteCode := by
  intro s i hr hpc hd
  have hfetch : fetch s = .ok i := fetch_eq_ok.mpr ⟨hpc, hd⟩
  refine ⟨fun hin => ?_, fun rest hin => ?_⟩
  · rw [step_decoder hin, decoderStep_of_fetch hr hfetch]
  · rw [step_host hin]
    exact decoderStep_of_fetch (s := { s with inbox := rest }) hr hfetch

/-- Settles O2: outside `RUN` the step is START, and `start_eq_next` has both of its next states. -/
theorem startInitialisesAndChecksTheSentinel : Obligations.StartInitialisesAndChecksTheSentinel := by
  intro s rest hin hr hlen
  rw [step_host hin, serveHost_start (s := { s with inbox := rest }) hr]
  exact ⟨fun hbad => start_eq_next.mpr ⟨hlen, .inl ⟨hbad, rfl⟩⟩,
    fun hne hzero => start_eq_next.mpr ⟨hlen, .inr ⟨hne, hzero, rfl⟩⟩⟩

/-- Settles O12: END is enabled at the sentinel's address, and a state is there whatever its buffer holds. -/
theorem endSetsDoneAndNothingElse : Obligations.EndSetsDoneAndNothingElse := by
  refine fun s hs => ⟨execEndOfStream_eq_next.mpr ⟨hs, rfl⟩, fun hin other seed => ?_⟩
  rw [step_decoder (s := { s with buf := other, bufSeed := seed }) hin]
  exact decoderStep_atSentinel (s := { s with buf := other, bufSeed := seed }) hs

/-- Settles O36: the one next state END answers differs from the state before in STATUS. -/
theorem endFrame : Obligations.EndFrame := by
  intro s t h
  obtain ⟨-, rfl⟩ := execEndOfStream_eq_next.mp h
  exact ⟨rfl, rfl, rfl, rfl, rfl, rfl, rfl, rfl, rfl, rfl, rfl, fun _ => rfl⟩

end Sys2Proof.Machine
end

section
/-! A running decode: every step is enabled, passes one byte-code or ends the decode, so the bytes left bound its length
(10_state R13, 40_start_dispatch_end R70, R74, R75, 70_reset_and_hazards R137). -/
namespace Sys2Proof

theorem byteLength_cases (i : Instr) : byteLength i = 1 ∨ byteLength i = 2 ∨ byteLength i = 6 := by
  cases i <;> simp [byteLength]

end Sys2Proof

namespace Sys2Proof.Machine

/-- A meaning that leaves the decode running has passed its own bytes, all of them before the sentinel. -/
theorem exec_passes_bytes {i : Instr} {s t : State} (h : exec i s = .next t) (hr : t.status = .run) :
    t.pc = s.pc + byteLength i ∧ t.pc + 1 ≤ t.len := by
  have hpassed {u : State} {n : Nat} (hc : AtByteCode s) (hn : n ≤ s.remaining) (hpc : u.pc = s.pc)
      (hlen : u.len = s.len) : (u.advance n).pc = s.pc + n ∧ (u.advance n).pc + 1 ≤ (u.advance n).len := by
    have hlt := hc.2
    unfold State.remaining at hn
    simp only [State.advance_pc, State.advance_len, hpc, hlen, true_and]
    omega
  cases i with
  | flux1 b =>
    obtain ⟨hc, -, rfl⟩ := execFlux1_eq_next.mp h
    exact hpassed hc (remaining_pos hc) rfl rfl
  | flux2 b e =>
    obtain ⟨hc, ⟨-, rfl⟩ | ⟨hn, -, rfl⟩⟩ := execFlux2_eq_next.mp h
    · simp at hr
    · exact hpassed hc hn rfl rfl
  | index b0 b1 b2 b3 =>
    obtain ⟨hc, ⟨-, rfl⟩ | ⟨hn, -, rfl⟩⟩ := execIndex_eq_next.mp h
    · simp at hr
    · exact hpassed hc hn rfl rfl
  | space b0 b1 b2 b3 =>
    obtain ⟨hc, ⟨-, rfl⟩ | ⟨hn, -, rfl⟩⟩ := execSpace_eq_next.mp h
    · simp at hr
    · exact hpassed hc hn rfl rfl
  | reservedEscape0 =>
    obtain ⟨-, ⟨-, rfl⟩ | ⟨-, rfl⟩⟩ := execReservedEscape0_eq_next.mp h <;> simp at hr
  | reservedEscape op =>
    obtain ⟨-, ⟨-, rfl⟩ | ⟨-, rfl⟩⟩ := execReservedEscape_eq_next.mp h <;> simp at hr
  | endOfStream =>
    obtain ⟨-, rfl⟩ := execEndOfStream_eq_next.mp h
    simp at hr

/-- Settles O19: the step is the byte-code's meaning, which moves the cursor by the row's length. -/
theorem cursorMovesByTheLengthAlone : Obligations.CursorMovesByTheLengthAlone := by
  intro s t i hin hr hpc hd hstep hrun
  rw [(stepRunsTheDecodedByteCode s i hr hpc hd).1 hin] at hstep
  obtain ⟨hcursor, hbound⟩ := exec_passes_bytes hstep hrun
  exact ⟨hcursor, byteLength_cases i, hbound⟩

/-- Settles O21: at or before the sentinel the decoder's step has no fault, and at the defaults no refusal. -/
theorem runningDecoderAlwaysSteps : Obligations.RunningDecoderAlwaysSteps := by
  rintro s ⟨-, -, hcursor, -⟩ hp hin hr
  rw [step_decoder hin]
  cases hd : decoderStep s with
  | next t => exact ⟨t, rfl⟩
  | fault f => exact absurd hd (decoderStep_ne_fault hr (hcursor hr).1)
  | refused r => exact absurd hd (decoderStep_ne_refused_of_unbounded hp r)

/-! ### Termination -/

/-- A decoder's step from `RUN` that does not end the decode has moved the cursor on. -/
theorem pc_lt_of_decoderStep {s t : State} (hr : s.status = .run) (h : decoderStep s = .next t)
    (hrun : t.status = .run) : s.pc < t.pc := by
  obtain ⟨hne, -⟩ | ⟨-, i, -, he⟩ | ⟨-, -, rfl⟩ := decoderStep_cases h
  · exact absurd hr hne
  · obtain ⟨hcursor, -⟩ := exec_passes_bytes he hrun
    have hlength := byteLength_cases i
    omega
  · simp at hrun

/-- A decoder's step from `RUN` keeps the host's inputs and the parameters, and goes on or ends the decode. -/
theorem DecoderMove.frame {s t : State} (hr : s.status = .run) (h : DecoderMove s t) :
    t.len = s.len ∧ t.inbox = s.inbox ∧ t.params = s.params
      ∧ (t.status = .run ∨ t.status = .done ∨ t.status = .err) := by
  cases h with
  | emitFlux n k => exact ⟨rfl, rfl, rfl, .inl hr⟩
  | emitIndex v => exact ⟨rfl, rfl, rfl, .inl hr⟩
  | addSpace v => exact ⟨rfl, rfl, rfl, .inl hr⟩
  | raise info _ => exact ⟨rfl, rfl, rfl, .inr (.inr rfl)⟩
  | finish _ => exact ⟨rfl, rfl, rfl, .inr (.inl rfl)⟩

/-- `k` steps end a decode with at most `k` bytes left, the sentinel's included: each step that does not end it takes at
least one, and a decode that has ended stays so. -/
theorem run_ends_of_bytes_left_le (k : Nat) {s : State} (h : Inv s) (hp : s.params = Params.unbounded)
    (hin : s.inbox = []) (hr : s.status = .run) (hk : s.len - s.pc ≤ k) :
    ∃ t : State, Host.Core.run Sys2Proof.core k s = .next t ∧ (t.status = .done ∨ t.status = .err) := by
  induction k generalizing s with
  | zero =>
    obtain ⟨-, -, hcursor, -⟩ := h
    have := (hcursor hr).1
    omega
  | succ k ih =>
    obtain ⟨u, hstep⟩ := runningDecoderAlwaysSteps s h hp hin hr
    have hd : decoderStep s = .next u := step_decoder hin ▸ hstep
    obtain ⟨hlen, hinbox, hparams, hstatus⟩ := (decoderStep_decoderMove hr hd).frame hr
    have hin' : u.inbox = [] := hinbox.trans hin
    rw [run_succ hstep]
    obtain hrun | hended := hstatus
    · have hcursor := pc_lt_of_decoderStep hr hd hrun
      exact ih (h.decoderStep hd) (hparams.trans hp) hin' hrun (by omega)
    · have hne : u.status ≠ .run := by obtain he | he := hended <;> simp [he]
      exact ⟨u, run_ended k hin' hne, hended⟩

/-- Settles O22: `run_ends_of_bytes_left_le` at exactly the bytes left. -/
theorem runningDecodeEnds : Obligations.RunningDecodeEnds :=
  fun _ h hp hin hr => run_ends_of_bytes_left_le _ h hp hin hr le_rfl

end Sys2Proof.Machine
end

section
/-! The flux byte-codes: what they emit (41_flux_codes R80, R82, R84) and what they leave. -/
namespace Sys2Proof.Machine

/-- An emission and the cursor's advance as one record update, the interval's summands cast to `Int` one by one. -/
theorem emitFlux_advance_eq (n k : Nat) (s : State) :
    (emitFlux n s).advance k =
      { s with fluxq := s.fluxq ++ [s.acc + n], tsi := s.tsi + (s.acc + n), acc := 0, pc := s.pc + k } := by
  simp [emitFlux, State.advance]

theorem emitFluxFits_of_fits {n : Nat} {s : State} (hinterval : natFits s.params.accBits (s.acc + n) = true)
    (htsi : intFits s.params.tsiBits (s.tsi + (s.acc + n)) = true)
    (hroom : hasRoom s.params.fluxqCap s.fluxq.length = true) : emitFluxFits n s = true :=
  emitFluxFits_iff.mpr ⟨hinterval, by rwa [Nat.cast_add], hroom⟩

/-- Settles O5: one byte is always there, so only the parameters can stop the emission, and they hold it. -/
theorem flux1EmitsTheAccumulatedInterval : Obligations.Flux1EmitsTheAccumulatedInterval := by
  intro b s _ hs hinterval htsi hroom
  refine ⟨rfl, ?_⟩
  rw [← emitFlux_advance_eq]
  exact execFlux1_eq_next.mpr ⟨hs, emitFluxFits_of_fits hinterval htsi hroom, rfl⟩

/-- Settles O6: the two cases of the length test, and the immediate's range from `flux2Imm_bounds`. -/
theorem flux2EmitsTheAccumulatedInterval : Obligations.Flux2EmitsTheAccumulatedInterval := by
  rintro b e s _ hwf hs rfl
  obtain ⟨hlo, hhi⟩ := flux2Imm_bounds hwf
  refine ⟨rfl, hlo, hhi, fun hshort => ?_, fun hlong hinterval htsi hroom => ?_⟩
  · exact execFlux2_eq_next.mpr ⟨hs, .inl ⟨hshort, rfl⟩⟩
  · rw [← emitFlux_advance_eq]
    exact execFlux2_eq_next.mpr ⟨hs, .inr ⟨hlong, emitFluxFits_of_fits hinterval htsi hroom, rfl⟩⟩

/-- A flux byte-code that does not fault has emitted one interval and moved the cursor. -/
theorem flux_emits_of_no_fault {b e : Byte} {s t : State}
    (h : exec (.flux1 b) s = .next t ∨ exec (.flux2 b e) s = .next t) (hne : t.status ≠ .err) :
    ∃ n k, t = (emitFlux n s).advance k := by
  obtain h | h := h
  · obtain ⟨-, -, rfl⟩ := execFlux1_eq_next.mp h
    exact ⟨_, _, rfl⟩
  · obtain ⟨-, ⟨-, rfl⟩ | ⟨-, -, rfl⟩⟩ := execFlux2_eq_next.mp h
    · exact absurd rfl hne
    · exact ⟨_, _, rfl⟩

/-- Settles O33: neither the emission nor the advance writes any of the fields listed. -/
theorem fluxCodesFrame : Obligations.FluxCodesFrame := by
  intro b e s t h hne
  obtain ⟨n, k, rfl⟩ := flux_emits_of_no_fault h hne
  exact ⟨rfl, rfl, rfl, rfl, rfl, rfl, rfl, rfl, fun _ => rfl⟩

end Sys2Proof.Machine
end

section
/-! The escape byte-codes: what they complete with, fault with and are refused for (42_escape_codes R90, R95, R97, R99),
and what they leave. -/
namespace Sys2Proof.Machine

/-- Settles O10: with the opcode byte inside the prefix the length test passes. -/
theorem reservedOpcodesFault : Obligations.ReservedOpcodesFault :=
  fun _ hs hlong => ⟨execReservedEscape0_eq_next.mpr ⟨hs, .inr ⟨hlong, rfl⟩⟩,
    fun _ _ => execReservedEscape_eq_next.mpr ⟨hs, .inr ⟨hlong, rfl⟩⟩⟩

/-- Settles O11: both rows make the length test before they raise UnknownOpcode. -/
theorem reservedOpcodesTruncated : Obligations.ReservedOpcodesTruncated :=
  fun _ _ _ hs hshort => ⟨execReservedEscape0_eq_next.mpr ⟨hs, .inl ⟨hshort, rfl⟩⟩,
    execReservedEscape_eq_next.mpr ⟨hs, .inl ⟨hshort, rfl⟩⟩⟩

theorem u28_lt (b0 b1 b2 b3 : Byte) : u28 b0 b1 b2 b3 < 2 ^ 28 :=
  Nat.lt_of_le_of_lt (packedOperandIsTheSumOfItsGroups b0 b1 b2 b3).2 (by decide)

theorem emitIndexFits_eq_false {v : Nat} {s : State} :
    emitIndexFits v s = false ↔
      intFits s.params.tsiBits (s.tsi + s.acc + v) = false ∨ intFits s.params.tsiBits (-((s.acc : Int) + v)) = false
        ∨ hasRoom s.params.indexqCap s.indexq.length = false := by
  simp only [emitIndexFits, Bool.and_eq_false_iff, or_assoc]

section
variable {b0 b1 b2 b3 : Byte} {s : State}

theorem execIndex_eq_refused {r : Refusal} :
    execIndex b0 b1 b2 b3 s = .refused r ↔
      AtByteCode s ∧ 6 ≤ s.remaining ∧ emitIndexFits (u28 b0 b1 b2 b3) s = false ∧ r = .capacityExceeded := by
  rw [execIndex, needBytes_eq_refused, commit_eq_refused]

theorem execSpace_eq_refused {r : Refusal} :
    execSpace b0 b1 b2 b3 s = .refused r ↔
      AtByteCode s ∧ 6 ≤ s.remaining ∧ addSpaceFits (u28 b0 b1 b2 b3) s = false ∧ r = .capacityExceeded := by
  rw [execSpace, needBytes_eq_refused, commit_eq_refused]

end

/-- Settles O7: the length test's two cases, and past it whether the entry, the new TSI and the append fit. -/
theorem indexAppendsThePulseDistance : Obligations.IndexAppendsThePulseDistance := by
  rintro b0 b1 b2 b3 s _ hs rfl
  refine ⟨rfl, u28_lt b0 b1 b2 b3, fun hshort => ?_, fun hlong hentry htsi hroom => ?_, fun hlong hover => ?_⟩
  · exact execIndex_eq_next.mpr ⟨hs, .inl ⟨hshort, rfl⟩⟩
  · exact execIndex_eq_next.mpr ⟨hs, .inr ⟨hlong, emitIndexFits_iff.mpr ⟨hentry, htsi, hroom⟩, rfl⟩⟩
  · exact execIndex_eq_refused.mpr ⟨hs, hlong, emitIndexFits_eq_false.mpr hover, rfl⟩

/-- Settles O8: the length test's two cases, and past it whether the sum fits. -/
theorem spaceAddsToTheAccumulator : Obligations.SpaceAddsToTheAccumulator := by
  rintro b0 b1 b2 b3 s _ hs rfl
  refine ⟨rfl, u28_lt b0 b1 b2 b3, fun hshort => ?_, fun hlong hsum => ?_, fun hlong hover => ?_⟩
  · exact execSpace_eq_next.mpr ⟨hs, .inl ⟨hshort, rfl⟩⟩
  · exact execSpace_eq_next.mpr ⟨hs, .inr ⟨hlong, hsum, rfl⟩⟩
  · exact execSpace_eq_refused.mpr ⟨hs, hlong, hover, rfl⟩

/-! ### The codes that complete -/

section
variable {b0 b1 b2 b3 : Byte} {s t : State}

/-- An INDEX that does not fault has emitted its entry and passed its six bytes. -/
theorem index_emits_of_no_fault (h : exec (.index b0 b1 b2 b3) s = .next t) (hne : t.status ≠ .err) :
    s.status = .run ∧ t = (emitIndex (u28 b0 b1 b2 b3) s).advance 6 := by
  obtain ⟨⟨hr, -⟩, ⟨-, rfl⟩ | ⟨-, -, rfl⟩⟩ := execIndex_eq_next.mp h
  · exact absurd rfl hne
  · exact ⟨hr, rfl⟩

/-- A SPACE that does not fault has added its ticks and passed its six bytes. -/
theorem space_adds_of_no_fault (h : exec (.space b0 b1 b2 b3) s = .next t) (hne : t.status ≠ .err) :
    s.status = .run ∧ t = (addSpace (u28 b0 b1 b2 b3) s).advance 6 := by
  obtain ⟨⟨hr, -⟩, ⟨-, rfl⟩ | ⟨-, -, rfl⟩⟩ := execSpace_eq_next.mp h
  · exact absurd rfl hne
  · exact ⟨hr, rfl⟩

end

/-- Settles O34: neither the emission nor the advance writes any of the fields listed. -/
theorem indexFrame : Obligations.IndexFrame := by
  intro b0 b1 b2 b3 s t h hne
  obtain ⟨-, rfl⟩ := index_emits_of_no_fault h hne
  exact ⟨rfl, rfl, rfl, rfl, rfl, rfl, rfl, rfl, rfl, fun _ => rfl⟩

/-- Settles O35: neither the sum of ticks nor the advance writes any of the fields listed. -/
theorem spaceFrame : Obligations.SpaceFrame := by
  intro b0 b1 b2 b3 s t h hne
  obtain ⟨-, rfl⟩ := space_adds_of_no_fault h hne
  exact ⟨rfl, rfl, rfl, rfl, rfl, rfl, rfl, rfl, rfl, rfl, fun _ => rfl⟩

/-- Settles O55: the first INDEX leaves `-(ACC + val1)` in TSI and keeps ACC, so ACC cancels in the second entry. -/
theorem secondIndexEntryIsTheDifference : Obligations.SecondIndexEntryIsTheDifference := by
  intro b0 b1 b2 b3 c0 c1 c2 c3 s t u hfirst hsecond hu
  obtain ⟨ht, rfl⟩ := index_emits_of_no_fault hsecond (by simp [hu])
  obtain ⟨-, rfl⟩ := index_emits_of_no_fault hfirst (by simp [ht])
  have hcancel (acc v w : Int) : -(acc + v) + acc + w = w - v := by ring
  simp only [State.advance_indexq, State.advance_tsi, State.advance_acc, emitIndex_indexq, emitIndex_tsi,
    emitIndex_acc, hcancel, List.append_assoc, List.singleton_append]

/-- Settles O56: each SPACE leaves its sum in ACC for the next code, and FLUX1 emits and clears it. -/
theorem spacesAddUpInTheNextInterval : Obligations.SpacesAddUpInTheNextInterval := by
  intro b0 b1 b2 b3 c0 c1 c2 c3 b s t u v hfirst hsecond hflux _
  obtain ⟨⟨hu, -⟩, -, rfl⟩ := execFlux1_eq_next.mp hflux
  obtain ⟨ht, rfl⟩ := space_adds_of_no_fault hsecond (by simp [hu])
  obtain ⟨-, rfl⟩ := space_adds_of_no_fault hfirst (by simp [ht])
  exact ⟨rfl, rfl⟩

end Sys2Proof.Machine
end

section
/-! The operand fetch of INDEX and SPACE (42_escape_codes R93): what the window at `pc` holds decides the step. -/
namespace Sys2Proof.Machine

section
variable {s : State}

/-- With two bytes of the prefix left the window starts with the lead byte and the opcode byte. -/
theorem window_of_two (h : 2 ≤ s.remaining) :
    ∃ tail, s.window = s.byteAt s.pc :: s.byteAt (s.pc + 1) :: tail := by
  obtain ⟨n, hn⟩ : ∃ n, min 6 s.remaining = n + 2 := ⟨min 6 s.remaining - 2, by omega⟩
  exact ⟨s.bytesFrom (s.pc + 2) n, by rw [State.window, hn, bytesFrom_succ, bytesFrom_succ]⟩

/-- With six bytes of the prefix left the window holds the six bytes at `pc` in address order. -/
theorem window_of_six (h : 6 ≤ s.remaining) :
    s.window = [s.byteAt s.pc, s.byteAt (s.pc + 1), s.byteAt (s.pc + 2), s.byteAt (s.pc + 3),
      s.byteAt (s.pc + 4), s.byteAt (s.pc + 5)] := by
  rw [State.window, min_eq_left h]
  rfl

/-- Where the window starts with the bytes that spell a byte-code, and it fits, it is what is fetched. -/
theorem fetch_of_encode_prefix {i : Instr} (hpc : s.pc < s.len) (hwf : WellFormed i) (hfit : FitsBefore i s.remaining)
    (h : encode i <+: s.window) : fetch s = .ok i := by
  obtain ⟨rest, hrest⟩ := h
  exact fetch_eq_ok.mpr ⟨hpc, by rw [← hrest, decode_encode_append hwf hfit]⟩

theorem decoderStep_of_truncated (hr : s.status = .run) (hf : fetch s = .error .truncated) :
    decoderStep s = .next (s.raise .unexpectedEndOfStream 0) := by
  rw [decoderStep_run hr, hf]

end

/-- Settles O9: the lead byte and the opcode byte alone show a truncated code; six bytes spell INDEX or SPACE. -/
theorem operandFetchTestsTheLengthFirst : Obligations.OperandFetchTestsTheLengthFirst := by
  rintro s hin ⟨hr, hlen⟩ h2 hlead hop
  have hpc : s.pc < s.len := by omega
  rw [step_decoder hin]
  refine ⟨fun hshort => ?_, ?_⟩
  · obtain ⟨tail, hwindow⟩ := window_of_two h2
    have hdecode : decode s.remaining s.window = .error .truncated :=
      decode_eq_truncated.mpr (.inr ⟨h2, hshort, _, tail, by rw [hwindow, hlead], hop⟩)
    exact decoderStep_of_truncated hr (fetch_eq_truncated.mpr ⟨hpc, hdecode⟩)
  · rintro b0 b1 b2 b3 h6 rfl rfl rfl rfl
    have hrun (i : Instr) (hwf : WellFormed i) (hfit : FitsBefore i s.remaining) (hspell : encode i = s.window) :
        decoderStep s = exec i s :=
      decoderStep_of_fetch hr (fetch_of_encode_prefix hpc hwf hfit (hspell ▸ List.prefix_rfl))
    have hwindow := window_of_six h6
    rw [hlead] at hwindow
    refine ⟨fun hindex => hrun _ trivial h6 ?_, fun hspace => hrun _ trivial h6 ?_⟩
    · rw [hwindow, hindex]; rfl
    · rw [hwindow, hspace]; rfl

end Sys2Proof.Machine
end

section
/-! Which meaning takes which fault, and on which bytes the decoder's step does (60_exceptions R112, R113, R116). -/
namespace Sys2Proof

/-- The byte-code of the reserved opcode byte `op`: opcode 0 has a row of its own (30_encoding R55, R61). -/
def reservedRow (op : Byte) : Instr := if op = 0 then .reservedEscape0 else .reservedEscape op

theorem reservedRow_of_three_le {op : Byte} (h : 3 ≤ op.toNat) : reservedRow op = .reservedEscape op :=
  if_neg (by rintro rfl; simp at h)

theorem encode_reservedRow (op : Byte) : encode (reservedRow op) = [255, op] := by
  unfold reservedRow
  split
  · next h => rw [h]; rfl
  · rfl

theorem fitsBefore_reservedRow {op : Byte} {rem : Nat} : FitsBefore (reservedRow op) rem ↔ 2 ≤ rem := by
  unfold reservedRow
  split <;> rfl

/-- The reserved opcodes are those other than INDEX's and SPACE's. -/
theorem wellFormed_reservedRow {op : Byte} : WellFormed (reservedRow op) ↔ op ≠ 1 ∧ op ≠ 2 := by
  unfold reservedRow
  split
  · next h => simp [h]
  · next h =>
    show 3 ≤ op.toNat ↔ op ≠ 1 ∧ op ≠ 2
    bv_omega

end Sys2Proof

namespace Sys2Proof.Machine

theorem exec_reservedRow (op : Byte) (s : State) :
    exec (reservedRow op) s = needBytes 2 s (.next (s.raise .unknownOpcode op)) := by
  unfold reservedRow
  split
  · next h => rw [h]; rfl
  · rfl

theorem exec_outside_run {i : Instr} {s : State} (hr : s.status ≠ .run) : exec i s = .fault .notRunning := by
  cases i <;> exact if_pos hr

theorem run_of_exec_next {i : Instr} {s t : State} (h : exec i s = .next t) : s.status = .run := by
  by_contra hr
  simp [exec_outside_run hr] at h

/-- The two faults of a meaning: its bytes are not all before the sentinel, or it is a reserved row, which as an
ill-formed term runs by its row's formula too (log entry 9). -/
theorem exec_err {i : Instr} {s t : State} (h : exec i s = .next t) (herr : t.status = .err) :
    ¬ FitsBefore i s.remaining ∧ t = s.raise .unexpectedEndOfStream 0
      ∨ ∃ op, (WellFormed i → i = reservedRow op) ∧ t = s.raise .unknownOpcode op := by
  have hr := run_of_exec_next h
  cases i with
  | flux1 b =>
    obtain ⟨-, -, rfl⟩ := execFlux1_eq_next.mp h
    simp [hr] at herr
  | flux2 b e =>
    obtain ⟨-, ⟨hshort, rfl⟩ | ⟨-, -, rfl⟩⟩ := execFlux2_eq_next.mp h
    · exact .inl ⟨Nat.not_le.mpr hshort, rfl⟩
    · simp [hr] at herr
  | index b0 b1 b2 b3 =>
    obtain ⟨-, ⟨hshort, rfl⟩ | ⟨-, -, rfl⟩⟩ := execIndex_eq_next.mp h
    · exact .inl ⟨Nat.not_le.mpr hshort, rfl⟩
    · simp [hr] at herr
  | space b0 b1 b2 b3 =>
    obtain ⟨-, ⟨hshort, rfl⟩ | ⟨-, -, rfl⟩⟩ := execSpace_eq_next.mp h
    · exact .inl ⟨Nat.not_le.mpr hshort, rfl⟩
    · simp [hr] at herr
  | reservedEscape0 =>
    obtain ⟨-, ⟨hshort, rfl⟩ | ⟨-, rfl⟩⟩ := execReservedEscape0_eq_next.mp h
    · exact .inl ⟨Nat.not_le.mpr hshort, rfl⟩
    · exact .inr ⟨0, fun _ => rfl, rfl⟩
  | reservedEscape op =>
    obtain ⟨-, ⟨hshort, rfl⟩ | ⟨-, rfl⟩⟩ := execReservedEscape_eq_next.mp h
    · exact .inl ⟨Nat.not_le.mpr hshort, rfl⟩
    · exact .inr ⟨op, fun hwf => (reservedRow_of_three_le hwf).symm, rfl⟩
  | endOfStream =>
    obtain ⟨-, rfl⟩ := execEndOfStream_eq_next.mp h
    simp at herr

/-- Settles O37: both faults are taken by `raise`. -/
theorem faultingByteCodesFrame : Obligations.FaultingByteCodesFrame := by
  intro i s t h herr
  obtain ⟨-, rfl⟩ | ⟨op, -, rfl⟩ := exec_err h herr <;>
    exact ⟨rfl, rfl, rfl, rfl, rfl, rfl, rfl, rfl, rfl, fun _ => rfl⟩

/-- Settles O18: the decoder's step into `ERR` by `eq_raise_of_decoderStep`, START's as the first of its two next states;
in `RUN` START is refused. -/
theorem raiseDoesThisAndNothingElse : Obligations.RaiseDoesThisAndNothingElse := by
  refine ⟨fun s k info => rfl, fun s t hin hr hstep herr => ?_, fun s t rest hin hstep herr => ?_⟩
  · exact eq_raise_of_decoderStep hr (step_decoder hin ▸ hstep) herr
  · rw [step_host hin] at hstep
    by_cases hr : s.status = .run
    · simp [serveHost, hr] at hstep
    · rw [serveHost_start (s := { s with inbox := rest }) hr] at hstep
      obtain ⟨-, ⟨-, rfl⟩ | ⟨-, -, rfl⟩⟩ := start_eq_next.mp hstep
      · rfl
      · simp at herr

/-! ### The fault by the bytes at `pc` -/

section
variable {s : State}

theorem fetch_reservedRow {op : Byte} :
    fetch s = .ok (reservedRow op) ↔
      s.pc + 1 < s.len ∧ s.byteAt s.pc = 255 ∧ 2 ≤ s.remaining ∧ s.byteAt (s.pc + 1) = op ∧ op ≠ 1 ∧ op ≠ 2 := by
  constructor
  · intro h
    obtain ⟨hwf, hfit⟩ := fetch_sound h
    obtain ⟨hpc, hdecode⟩ := fetch_eq_ok.mp h
    have hrem := fitsBefore_reservedRow.mp hfit
    have hne : reservedRow op ≠ .endOfStream := by unfold reservedRow; split <;> simp
    have hspell := encode_prefix_of_decode hdecode hne
    obtain ⟨tail, hwindow⟩ := window_of_two hrem
    rw [encode_reservedRow, hwindow, List.cons_prefix_cons, List.cons_prefix_cons] at hspell
    obtain ⟨hlead, hop, -⟩ := hspell
    have hlen : s.pc + 1 < s.len := by unfold State.remaining at hrem; omega
    exact ⟨hlen, hlead.symm, hrem, hop.symm, wellFormed_reservedRow.mp hwf⟩
  · rintro ⟨hlen, hlead, hrem, hop, hknown⟩
    obtain ⟨tail, hwindow⟩ := window_of_two hrem
    refine fetch_of_encode_prefix (by omega) (wellFormed_reservedRow.mpr hknown) (fitsBefore_reservedRow.mpr hrem) ?_
    exact ⟨tail, by rw [hwindow, encode_reservedRow, hlead, hop]; rfl⟩

/-- With one byte of the prefix left the window is the lead byte. -/
theorem window_of_one (h : s.remaining = 1) : s.window = [s.byteAt s.pc] := by
  rw [State.window, h]
  rfl

/-- A byte-code is cut off exactly where R113's table says: a lead byte from 250 on with nothing after it, or a known
opcode with too few operand bytes. -/
theorem fetch_truncated_iff :
    fetch s = .error .truncated ↔
      s.pc + 1 < s.len ∧
        (250 ≤ (s.byteAt s.pc).toNat ∧ s.remaining < 2
          ∨ s.byteAt s.pc = 255 ∧ 2 ≤ s.remaining ∧ s.remaining < 6
            ∧ (s.byteAt (s.pc + 1) = 1 ∨ s.byteAt (s.pc + 1) = 2)) := by
  have hlen : s.pc + 1 < s.len ↔ 1 ≤ s.remaining := by unfold State.remaining; omega
  rw [fetch_eq_truncated, decode_eq_truncated, hlen]
  constructor
  · rintro ⟨-, ⟨h1, b, tail, hbytes, hb⟩ | ⟨h2, h6, c, tail, hbytes, hc⟩⟩
    · obtain ⟨rfl, -⟩ := List.cons.inj ((window_of_one h1).symm.trans hbytes)
      exact ⟨h1.ge, .inl ⟨hb, by omega⟩⟩
    · obtain ⟨tail', hwindow⟩ := window_of_two h2
      obtain ⟨hlead, htail⟩ := List.cons.inj (hwindow.symm.trans hbytes)
      obtain ⟨rfl, -⟩ := List.cons.inj htail
      exact ⟨by omega, .inr ⟨hlead, h2, h6, hc⟩⟩
  · rintro ⟨h1, ⟨hb, hshort⟩ | ⟨hlead, h2, h6, hc⟩⟩
    · have hone : s.remaining = 1 := by omega
      exact ⟨by omega, .inl ⟨hone, _, _, window_of_one hone, hb⟩⟩
    · obtain ⟨tail, hwindow⟩ := window_of_two h2
      exact ⟨by omega, .inr ⟨h2, h6, _, tail, by rw [hwindow, hlead], hc⟩⟩

/-- The decoder's step from `RUN` into `ERR` by what is fetched. -/
theorem decoderStep_err_iff {t : State} (hr : s.status = .run) :
    decoderStep s = .next t ∧ t.status = .err ↔
      (∃ op, fetch s = .ok (reservedRow op) ∧ t = s.raise .unknownOpcode op)
        ∨ fetch s = .error .truncated ∧ t = s.raise .unexpectedEndOfStream 0 := by
  constructor
  · rintro ⟨h, herr⟩
    obtain ⟨hne, -⟩ | ⟨-, i, hf, he⟩ | ⟨-, hf, rfl⟩ := decoderStep_cases h
    · exact absurd hr hne
    · obtain ⟨hwf, hfit⟩ := fetch_sound hf
      obtain ⟨hshort, -⟩ | ⟨op, hi, ht⟩ := exec_err he herr
      · exact absurd hfit hshort
      · exact .inl ⟨op, hi hwf ▸ hf, ht⟩
    · exact .inr ⟨hf, rfl⟩
  · rintro (⟨op, hf, rfl⟩ | ⟨hf, rfl⟩)
    · have hrem := fitsBefore_reservedRow.mp (fetch_sound hf).2
      have hat : AtByteCode s := atByteCode_of_remaining hr (by omega)
      exact ⟨by rw [decoderStep_of_fetch hr hf, exec_reservedRow, needBytes_pass hat hrem], rfl⟩
    · exact ⟨decoderStep_of_truncated hr hf, rfl⟩

end

/-- Settles O16: of the two faults the kind picks a fetched reserved row, and `fetch_reservedRow` has its bytes. -/
theorem unknownOpcodeExactly : Obligations.UnknownOpcodeExactly := by
  intro s op hin hr
  rw [step_decoder hin, ← fetch_reservedRow]
  constructor
  · rintro ⟨t, hstep, herr, hkind, rfl⟩
    obtain ⟨op, hf, rfl⟩ | ⟨-, rfl⟩ := (decoderStep_err_iff hr).mp ⟨hstep, herr⟩
    · exact hf
    · simp at hkind
  · intro hf
    obtain ⟨hstep, herr⟩ := (decoderStep_err_iff hr).mpr (.inl ⟨op, hf, rfl⟩)
    exact ⟨_, hstep, herr, rfl, rfl⟩

/-- Settles O17: of the two faults the kind picks the cut-off byte-code, and `fetch_truncated_iff` has its bytes; the
table's first two rows are the lead bytes from 250 on. -/
theorem unexpectedEndOfStreamExactly : Obligations.UnexpectedEndOfStreamExactly := by
  intro s hin hr
  have hfault : (∃ t, step s = .next t ∧ t.status = .err ∧ t.errKind = .unexpectedEndOfStream ∧ t.errVal = 0) ↔
      fetch s = .error .truncated := by
    rw [step_decoder hin]
    constructor
    · rintro ⟨t, hstep, herr, hkind, -⟩
      obtain ⟨op, -, rfl⟩ | ⟨hf, -⟩ := (decoderStep_err_iff hr).mp ⟨hstep, herr⟩
      · simp at hkind
      · exact hf
    · intro hf
      obtain ⟨hstep, herr⟩ := (decoderStep_err_iff hr).mpr (.inr ⟨hf, rfl⟩)
      exact ⟨_, hstep, herr, rfl, rfl⟩
  have hlead (b : Byte) : 250 ≤ b.toNat ↔ 250 ≤ b.toNat ∧ b.toNat ≤ 254 ∨ b = 255 := by bv_omega
  rw [hfault, fetch_truncated_iff, hlead]
  simp only [exists_eq_left, or_and_right, and_assoc, or_assoc]

end Sys2Proof.Machine
end

section
/-! Where a byte-code whose bytes are there is refused (41_flux_codes R80, 42_escape_codes R95, R97, 60_exceptions
R123). -/
namespace Sys2Proof.Machine

theorem emitFluxFits_eq_false {n : Nat} {s : State} :
    emitFluxFits n s = false ↔
      natFits s.params.accBits (s.acc + n) = false ∨ intFits s.params.tsiBits (s.tsi + (s.acc + n)) = false
        ∨ hasRoom s.params.fluxqCap s.fluxq.length = false := by
  simp only [emitFluxFits, Bool.and_eq_false_iff, or_assoc, Nat.cast_add]

/-- The four byte-codes that commit values are refused exactly where these do not fit. -/
theorem needBytes_commit_refused_iff {n : Nat} {s t : State} {fits : Bool} (h : AtByteCode s) (hn : n ≤ s.remaining) :
    needBytes n s (commit fits t) = .refused .capacityExceeded ↔ fits = false := by
  rw [needBytes_pass h hn, commit_eq_refused, and_iff_left rfl]

theorem needBytes_next_ne_refused {n : Nat} {s t : State} {r : Refusal} : needBytes n s (.next t) ≠ .refused r := by
  simp [needBytes_eq_refused]

/-- Settles O47: past the length test the commit decides, by what each row has to fit; the other rows commit nothing. -/
theorem refusedExactlyWhereNotFitting : Obligations.RefusedExactlyWhereNotFitting := by
  intro i s hs hfit
  cases i with
  | flux1 b => exact (needBytes_commit_refused_iff hs hfit).trans emitFluxFits_eq_false
  | flux2 b e => exact (needBytes_commit_refused_iff hs hfit).trans emitFluxFits_eq_false
  | index b0 b1 b2 b3 => exact (needBytes_commit_refused_iff hs hfit).trans emitIndexFits_eq_false
  | space b0 b1 b2 b3 => exact needBytes_commit_refused_iff hs hfit
  | reservedEscape0 => exact iff_false_intro needBytes_next_ne_refused
  | reservedEscape op => exact iff_false_intro needBytes_next_ne_refused
  | endOfStream => exact iff_false_intro execEndOfStream_ne_refused

end Sys2Proof.Machine
end

section
/-! The emissions of a call, in the queues while `RUN` stages them and at `DONE`, through every step: what the decoder's
step can add to them, and that no other step changes them but by clearing them. -/
namespace Sys2Proof.Machine

/-- What a decoder's step from `RUN` that takes no fault leads to in `s`, with the ranges of the immediates and operands
(30_encoding R57-R59) that `DecoderMove` leaves out. -/
inductive Emission (s : State) : State → Prop where
  | flux {n k : Nat} (hn : n ≤ 1524) (hk : 1 ≤ k) : Emission s ((emitFlux n s).advance k)
  | index {v : Nat} (hv : v ≤ 268435455) : Emission s ((emitIndex v s).advance 6)
  | space {v : Nat} (hv : v ≤ 268435455) : Emission s ((addSpace v s).advance 6)
  | finish : Emission s s.finish

theorem not_holdsEmissions_raise (s : State) (k : ErrKind) (info : Byte) : ¬ HoldsEmissions (s.raise k info) := by
  simp [HoldsEmissions]

theorem exec_emission {i : Instr} {s t : State} (hwf : WellFormed i) (h : exec i s = .next t)
    (ht : HoldsEmissions t) : Emission s t := by
  cases i with
  | flux1 b =>
    obtain ⟨-, -, rfl⟩ := execFlux1_eq_next.mp h
    exact .flux (le_trans hwf (by decide)) le_rfl
  | flux2 b e =>
    obtain ⟨-, ⟨-, rfl⟩ | ⟨-, -, rfl⟩⟩ := execFlux2_eq_next.mp h
    · exact absurd ht (not_holdsEmissions_raise _ _ _)
    · exact .flux (flux2Imm_bounds hwf).2 (by decide)
  | index b0 b1 b2 b3 =>
    obtain ⟨-, ⟨-, rfl⟩ | ⟨-, -, rfl⟩⟩ := execIndex_eq_next.mp h
    · exact absurd ht (not_holdsEmissions_raise _ _ _)
    · exact .index (Nat.le_of_lt_succ (u28_lt b0 b1 b2 b3))
  | space b0 b1 b2 b3 =>
    obtain ⟨-, ⟨-, rfl⟩ | ⟨-, -, rfl⟩⟩ := execSpace_eq_next.mp h
    · exact absurd ht (not_holdsEmissions_raise _ _ _)
    · exact .space (Nat.le_of_lt_succ (u28_lt b0 b1 b2 b3))
  | reservedEscape0 =>
    obtain ⟨-, ⟨-, rfl⟩ | ⟨-, rfl⟩⟩ := execReservedEscape0_eq_next.mp h <;>
      exact absurd ht (not_holdsEmissions_raise _ _ _)
  | reservedEscape op =>
    obtain ⟨-, ⟨-, rfl⟩ | ⟨-, rfl⟩⟩ := execReservedEscape_eq_next.mp h <;>
      exact absurd ht (not_holdsEmissions_raise _ _ _)
  | endOfStream =>
    obtain ⟨-, rfl⟩ := execEndOfStream_eq_next.mp h
    exact .finish

/-! ### A property of the emissions is kept by every step if the four emissions keep it -/

section
variable {Q : State → Prop} {s t : State}
  (hcleared : ∀ u : State, u.pc = 0 → u.acc = 0 → u.tsi = 0 → u.fluxq = [] → u.indexq = [] → Q u)
  (hinputs : ∀ (u : State) (m : Memory) (n : Nat) (moves : List HostAction), Q u →
    Q { u with buf := m, len := n, inbox := moves })
  (hemission : ∀ {u v : State}, Emission u v → Q u → Q v)

include hemission in
theorem decoderStep_keeps_emissions (h : HoldsEmissions s → Q s) (hd : decoderStep s = .next t) :
    HoldsEmissions t → Q t := by
  intro ht
  obtain ⟨-, rfl⟩ | ⟨hr, i, hf, he⟩ | ⟨-, -, rfl⟩ := decoderStep_cases hd
  · exact h ht
  · exact hemission (exec_emission (fetch_sound hf).1 he ht) (h (.inl hr))
  · exact absurd ht (not_holdsEmissions_raise _ _ _)

include hcleared in
theorem start_clears_emissions (h : start s = .next t) : HoldsEmissions t → Q t := by
  intro ht
  obtain ⟨-, ⟨-, rfl⟩ | ⟨-, -, rfl⟩⟩ := start_eq_next.mp h
  · exact absurd ht (not_holdsEmissions_raise _ _ _)
  · exact hcleared _ rfl rfl rfl rfl rfl

include hcleared hinputs hemission in
theorem serveHost_keeps_emissions {a : HostAction} (h : HoldsEmissions s → Q s) (hs : serveHost a s = .next t) :
    HoldsEmissions t → Q t := by
  obtain ⟨-, x, b, -, rfl⟩ | ⟨-, n, -, rfl⟩ | ⟨-, -, hstart⟩ | ⟨-, rfl⟩ | ⟨-, rfl⟩ | ⟨-, hd⟩ := serveHost_cases hs
  · exact fun ht => hinputs s _ _ _ (h ht)
  · exact fun ht => hinputs s _ _ _ (h ht)
  · exact start_clears_emissions hcleared hstart
  · exact h
  · exact fun _ => hcleared _ rfl rfl rfl rfl rfl
  · exact decoderStep_keeps_emissions hemission h hd

include hcleared hinputs hemission in
theorem step_keeps_emissions (h : HoldsEmissions s → Q s) (hstep : step s = .next t) : HoldsEmissions t → Q t := by
  cases hin : s.inbox with
  | nil => exact decoderStep_keeps_emissions hemission h (step_decoder hin ▸ hstep)
  | cons a rest =>
    have hrest : HoldsEmissions { s with inbox := rest } → Q { s with inbox := rest } :=
      fun hs => hinputs s _ _ rest (h hs)
    exact serveHost_keeps_emissions hcleared hinputs hemission hrest (step_host hin ▸ hstep)

end

end Sys2Proof.Machine
end

section
/-! What 70_reset_and_hazards R142, R143 and R144 say of the emissions: the times, the bounds and the counts through
every step, and all invariants after reset (R130). -/
namespace Sys2Proof.Machine

@[simp] theorem emitFlux_position (n : Nat) (s : State) : (emitFlux n s).position = s.position + n := by
  simp [State.position]; omega

@[simp] theorem emitIndex_position (v : Nat) (s : State) : (emitIndex v s).position = s.position := rfl

@[simp] theorem addSpace_position (v : Nat) (s : State) : (addSpace v s).position = s.position + v := by
  simp [State.position]; omega

@[simp] theorem State.advance_position (s : State) (n : Nat) : (s.advance n).position = s.position := rfl

/-- What R142 and R143 say of the emissions, together as the emissions keep it: the bound on TSI is left out, for it
follows from TSI being `T - P` and the range of `P`. -/
def WithinBounds (s : State) : Prop :=
  s.tsi = (s.fluxq.sum : Int) - s.indexq.sum
    ∧ (0 ≤ s.indexq.sum ∧ s.indexq.sum ≤ (s.position : Int) + 268435455)
    ∧ s.acc ≤ 268435455 * (s.pc / 6)
    ∧ (∀ f ∈ s.fluxq, f ≤ 268435455 * (s.pc / 6) + 1524)
    ∧ s.position ≤ 44739243 * s.pc
    ∧ ∀ x ∈ s.indexq, x.natAbs ≤ s.position + 268435455

theorem withinBounds_of_invs {s : State} (hclock : ClockInv s) (hpulse : PulseInv s) (hbounds : BoundsInv s)
    (h : HoldsEmissions s) : WithinBounds s := by
  obtain ⟨hacc, hflux, hposition, -, hindex⟩ := hbounds h
  exact ⟨hclock h, hpulse h, hacc, hflux, hposition, hindex⟩

theorem WithinBounds.tsi_le {s : State} (h : WithinBounds s) : s.tsi.natAbs ≤ s.position + 268435455 := by
  obtain ⟨htsi, ⟨hpulse, hpulse'⟩, -⟩ := h
  unfold State.position at *
  omega

theorem withinBounds_of_cleared {s : State} (hacc : s.acc = 0) (htsi : s.tsi = 0) (hflux : s.fluxq = [])
    (hindex : s.indexq = []) : WithinBounds s := by
  simp [WithinBounds, State.position, hacc, htsi, hflux, hindex]

/-- The bound on a flux entry grows with the bytes decoded. -/
theorem flux_bound_mono {q : List Nat} {k m : Nat} (hk : k ≤ m) (h : ∀ f ∈ q, f ≤ 268435455 * (k / 6) + 1524) :
    ∀ f ∈ q, f ≤ 268435455 * (m / 6) + 1524 := fun f hf => by
  have := h f hf
  omega

/-- The bound on an index entry grows with the running position. -/
theorem index_bound_mono {q : List Int} {p r : Nat} (hp : p ≤ r) (h : ∀ x ∈ q, x.natAbs ≤ p + 268435455) :
    ∀ x ∈ q, x.natAbs ≤ r + 268435455 := fun x hx => le_trans (h x hx) (Nat.add_le_add_right hp _)

theorem WithinBounds.emitFlux {s : State} {n k : Nat} (h : WithinBounds s) (hn : n ≤ 1524) (hk : 1 ≤ k) :
    WithinBounds ((emitFlux n s).advance k) := by
  obtain ⟨htsi, ⟨hpulse, hpulse'⟩, hacc, hflux, hposition, hindex⟩ := h
  have hinterval : s.acc + n ≤ 268435455 * ((s.pc + k) / 6) + 1524 := by omega
  refine ⟨?_, ⟨hpulse, ?_⟩, Nat.zero_le _,
    List.forall_mem_append.mpr
      ⟨flux_bound_mono (Nat.le_add_right _ _) hflux, List.forall_mem_singleton.mpr hinterval⟩,
    ?_, index_bound_mono (by simp) hindex⟩
  · simp [-Nat.cast_list_sum]; omega
  · simp; omega
  · simp; omega

/-- The pulse's time is the running position plus the operand, and the entry its distance from the pulse before. -/
theorem WithinBounds.emitIndex {s : State} {v : Nat} (h : WithinBounds s) (hv : v ≤ 268435455) :
    WithinBounds ((emitIndex v s).advance 6) := by
  obtain ⟨htsi, ⟨hpulse, hpulse'⟩, hacc, hflux, hposition, hindex⟩ := h
  have hsum : ((Machine.emitIndex v s).advance 6).indexq.sum = s.position + v := by
    simp [State.position, -Nat.cast_list_sum]; omega
  have hentry : (s.tsi + s.acc + v).natAbs ≤ s.position + 268435455 := by
    unfold State.position at *; omega
  refine ⟨?_, ⟨by omega, ?_⟩, ?_, flux_bound_mono (Nat.le_add_right _ _) hflux, ?_,
    List.forall_mem_append.mpr ⟨hindex, List.forall_mem_singleton.mpr hentry⟩⟩
  · rw [hsum]
    simp [State.position, -Nat.cast_list_sum]; omega
  · rw [hsum]
    simp; omega
  · simp; omega
  · simp; omega

theorem WithinBounds.addSpace {s : State} {v : Nat} (h : WithinBounds s) (hv : v ≤ 268435455) :
    WithinBounds ((addSpace v s).advance 6) := by
  obtain ⟨htsi, ⟨hpulse, hpulse'⟩, hacc, hflux, hposition, hindex⟩ := h
  refine ⟨htsi, ⟨hpulse, ?_⟩, ?_, flux_bound_mono (Nat.le_add_right _ _) hflux, ?_,
    index_bound_mono (by simp) hindex⟩
  · simp; omega
  · simp; omega
  · simp; omega

theorem WithinBounds.emission {s t : State} (h : WithinBounds s) (he : Emission s t) : WithinBounds t := by
  cases he with
  | flux hn hk => exact h.emitFlux hn hk
  | index hv => exact h.emitIndex hv
  | space hv => exact h.addSpace hv
  | finish => exact h

/-- Settles O51: with TSI as `T - P` the bounds are kept by each emission, and the bound on TSI follows from them. -/
theorem everyStepKeepsTheBounds : Obligations.EveryStepKeepsTheBounds := by
  rintro s t ⟨-, -, -, hclock⟩ hpulse hbounds hstep
  have ht : HoldsEmissions t → WithinBounds t :=
    step_keeps_emissions (fun _ _ => withinBounds_of_cleared) (fun _ _ _ _ h => h) (fun he h => h.emission he)
      (withinBounds_of_invs hclock hpulse hbounds) hstep
  refine ⟨fun h => ?_, fun h => ?_⟩
  · obtain ⟨-, hpulse', -⟩ := ht h
    exact hpulse'
  · have htsi := (ht h).tsi_le
    obtain ⟨-, -, hacc, hflux, hposition, hindex⟩ := ht h
    exact ⟨hacc, hflux, hposition, htsi, hindex⟩

/-- R144's bound on the number of entries, as the emissions keep it. -/
def CountsWithinBytes (s : State) : Prop := s.fluxq.length + 6 * s.indexq.length ≤ s.pc

theorem CountsWithinBytes.emission {s t : State} (h : CountsWithinBytes s) (he : Emission s t) :
    CountsWithinBytes t := by
  unfold CountsWithinBytes at *
  cases he with
  | flux _ hk => simp; omega
  | index _ => simp; omega
  | space _ => exact Nat.le_add_right_of_le h
  | finish => exact h

/-- Settles O52: an entry of either queue comes with an advance by the bytes it is counted for. -/
theorem everyStepKeepsTheCounts : Obligations.EveryStepKeepsTheCounts := fun _ _ h hstep =>
  step_keeps_emissions (Q := CountsWithinBytes)
    (fun u _ _ _ hflux hindex => by simp [CountsWithinBytes, hflux, hindex])
    (fun _ _ _ _ h => h) (fun he h => h.emission he) h hstep

/-- Settles O54: the new entry adds TSI, which is `T - P`, to the entries' sum `P`. -/
theorem indexEntriesSumToThePulseTime : Obligations.IndexEntriesSumToThePulseTime := by
  intro b0 b1 b2 b3 s t hclock h ht
  obtain ⟨hr, rfl⟩ := index_emits_of_no_fault h (by simp [ht])
  have htsi := hclock (.inl hr)
  simp only [State.advance_indexq, emitIndex_indexq, List.sum_append, List.sum_singleton]
  omega

/-- Settles O50: every register is 0 and every queue empty. -/
theorem resetMeetsTheInvariants : Obligations.ResetMeetsTheInvariants :=
  ⟨by decide, by decide, by decide, by decide, fitsInv_of_cleared rfl rfl rfl rfl (by simp [State.reset])⟩

end Sys2Proof.Machine
end

section
/-! R140's loop from the registers of a state: the bytes it passes, and that its outputs are append-only in the stream
(70_reset_and_hazards R140, R145). -/
namespace Sys2Proof.Machine

/-- What the loop returns from the registers of `s` and the given bytes. -/
def State.loopOn (s : State) (bytes : List Byte) : DecodeResult := decodeLoop bytes s.acc s.tsi s.fluxq s.indexq

/-- The loop passes the bytes `p` from the registers of `s` to those of `t`, appending to the queues, whatever bytes
follow. -/
structure Passes (p : List Byte) (s t : State) : Prop where
  fluxq : s.fluxq <+: t.fluxq
  indexq : s.indexq <+: t.indexq
  loop (more : List Byte) : s.loopOn (p ++ more) = t.loopOn more

section
variable {b e b0 b1 b2 b3 : Byte} {p q : List Byte} {s t u : State}

theorem passes_nil : Passes [] s s := ⟨List.prefix_rfl, List.prefix_rfl, fun _ => rfl⟩

theorem Passes.trans (hst : Passes p s t) (htu : Passes q t u) : Passes (p ++ q) s u :=
  ⟨hst.fluxq.trans htu.fluxq, hst.indexq.trans htu.indexq, fun more => by
    rw [List.append_assoc, hst.loop, htu.loop]⟩

theorem passes_flux1 (hb : b.toNat ≤ 249) : Passes [b] s (emitFlux (flux1Imm b) s) :=
  ⟨List.prefix_append _ _, List.prefix_rfl, fun _ => decodeLoop_flux1 hb⟩

theorem passes_flux2 (hlo : 250 ≤ b.toNat) (hhi : b.toNat ≤ 254) : Passes [b, e] s (emitFlux (flux2Imm b e) s) :=
  ⟨List.prefix_append _ _, List.prefix_rfl, fun _ => decodeLoop_flux2 hlo hhi⟩

theorem passes_index : Passes [255, 1, b0, b1, b2, b3] s (emitIndex (u28 b0 b1 b2 b3) s) :=
  ⟨List.prefix_rfl, List.prefix_append _ _, fun _ => decodeLoop_index rfl⟩

theorem passes_space : Passes [255, 2, b0, b1, b2, b3] s (addSpace (u28 b0 b1 b2 b3) s) :=
  ⟨List.prefix_rfl, List.prefix_rfl, fun _ => decodeLoop_space rfl⟩

end

/-- The loop succeeds only where it passes every byte, and returns the queues it then has. -/
theorem passes_of_loopOn_eq_ok {bytes : List Byte} {s : State} {flux : List Nat} {index : List Int}
    (h : s.loopOn bytes = .ok flux index) : ∃ t, Passes bytes s t ∧ t.fluxq = flux ∧ t.indexq = index := by
  induction hn : bytes.length using Nat.strong_induction_on generalizing bytes s with
  | _ n ih =>
    have hpassed {p tl : List Byte} {u : State} (hp : Passes p s u) (hpos : 0 < p.length) (hbytes : bytes = p ++ tl) :
        ∃ t, Passes bytes s t ∧ t.fluxq = flux ∧ t.indexq = index := by
      subst hbytes
      have hlt : tl.length < n := by rw [List.length_append] at hn; omega
      obtain ⟨t, ht, hqueues⟩ := ih _ hlt ((hp.loop tl).symm.trans h) rfl
      exact ⟨t, hp.trans ht, hqueues⟩
    obtain rfl | ⟨b, tl, hbytes, hb⟩ | ⟨b, rfl, hb⟩ | ⟨b, c, tl, hbytes, hlo, hhi⟩ | ⟨c, tl, rfl, h1, h2⟩ |
      ⟨b0, b1, b2, b3, tl, hbytes⟩ | ⟨b0, b1, b2, b3, tl, hbytes⟩ | ⟨c, tl, rfl, hc, hshort⟩ := prefix_cases bytes
    · obtain ⟨hflux, hindex⟩ := DecodeResult.ok.inj (decodeLoop_nil.symm.trans h)
      exact ⟨s, passes_nil, hflux, hindex⟩
    · exact hpassed (passes_flux1 hb) (Nat.zero_lt_succ _) hbytes
    · nomatch (decodeLoop_truncated_lead hb).symm.trans h
    · exact hpassed (passes_flux2 hlo hhi) (Nat.zero_lt_succ _) hbytes
    · nomatch (decodeLoop_unknown rfl h1 h2).symm.trans h
    · exact hpassed passes_index (Nat.zero_lt_succ _) hbytes
    · exact hpassed passes_space (Nat.zero_lt_succ _) hbytes
    · nomatch (decodeLoop_truncated_operands rfl hc hshort).symm.trans h

theorem decodeFlux_concat_sentinel (bytes : List Byte) :
    decodeFlux (bytes ++ [0]) = State.reset.loopOn bytes := by
  simp [decodeFlux, State.loopOn, State.reset]

theorem decodeFlux_concat_of_ne_zero {b : Byte} (bytes : List Byte) (hb : b ≠ 0) :
    decodeFlux (bytes ++ [b]) = .err .malformedBuffer 0 := by
  simp only [decodeFlux, List.getLast?_concat, if_pos hb]

/-- Settles O58: the loop passes the shorter stream, and from the queues it then has only appends. -/
theorem longerStreamsOnlyAddEntries : Obligations.LongerStreamsOnlyAddEntries := by
  intro xs ys f1 f2 i1 i2 hshort hlong
  rw [decodeFlux_concat_sentinel] at hshort hlong
  obtain ⟨t, hxs, rfl, rfl⟩ := passes_of_loopOn_eq_ok hshort
  obtain ⟨u, hys, rfl, rfl⟩ := passes_of_loopOn_eq_ok ((hxs.loop ys).symm.trans hlong)
  exact ⟨hys.fluxq, hys.indexq⟩

end Sys2Proof.Machine
end

section
/-! The step machine as a reading of R140's loop (70_reset_and_hazards R141): no step of a decode changes what the loop
returns from the registers and the bytes left. -/
namespace Sys2Proof.Machine

/-- What the call is bound to return: in `RUN` what the loop makes of the bytes left, else the result that stands. -/
def State.promised (s : State) : Option DecodeResult :=
  if s.status = .run then some (s.loopOn (s.bytesFrom s.pc s.remaining)) else s.result

theorem promised_of_run {s : State} (hr : s.status = .run) :
    s.promised = some (s.loopOn (s.bytesFrom s.pc s.remaining)) := if_pos hr

theorem promised_outside_run {s : State} (hr : s.status ≠ .run) : s.promised = s.result := if_neg hr

/-! ### One step -/

section
variable {s t : State}

/-- The bytes left are those that spell the byte-code fetched, and the rest. -/
theorem bytes_left_of_fetch {i : Instr} (hf : fetch s = .ok i) (hi : i ≠ .endOfStream) :
    s.bytesFrom s.pc s.remaining
      = encode i ++ s.bytesFrom (s.pc + byteLength i) (s.remaining - byteLength i) := by
  have hspell : encode i <+: s.window := encode_prefix_of_decode (fetch_eq_ok.mp hf).2 hi
  have hread : byteLength i ≤ s.remaining := bytesRead_of_byteCode hf hi ▸ bytesRead_le_remaining s
  have hwindow : s.window <+: s.bytesFrom s.pc s.remaining := by
    refine ⟨s.bytesFrom (s.pc + min 6 s.remaining) (s.remaining - min 6 s.remaining), ?_⟩
    rw [State.window, ← bytesFrom_add, Nat.add_sub_cancel' (min_le_right _ _)]
  have hsplit : s.bytesFrom s.pc s.remaining
      = s.bytesFrom s.pc (byteLength i) ++ s.bytesFrom (s.pc + byteLength i) (s.remaining - byteLength i) := by
    rw [← bytesFrom_add, Nat.add_sub_cancel' hread]
  have hfirst : encode i = s.bytesFrom s.pc (byteLength i) :=
    (List.prefix_of_prefix_length_le (hspell.trans hwindow) ⟨_, hsplit.symm⟩
      (by simp [encode_length])).eq_of_length (by simp [encode_length])
  rw [hfirst, hsplit]

/-- A byte-code that is not cut off and leaves the decode running does to the registers what the loop does on its
bytes. -/
theorem loopOn_encode_append {i : Instr} (hwf : WellFormed i) (h : exec i s = .next t) (ht : t.status = .run)
    (rest : List Byte) : s.loopOn (encode i ++ rest) = t.loopOn rest := by
  cases i with
  | flux1 b =>
    obtain ⟨-, -, rfl⟩ := execFlux1_eq_next.mp h
    exact (passes_flux1 hwf).loop rest
  | flux2 b e =>
    obtain ⟨-, ⟨-, rfl⟩ | ⟨-, -, rfl⟩⟩ := execFlux2_eq_next.mp h
    · simp at ht
    · exact (passes_flux2 hwf.1 hwf.2).loop rest
  | index b0 b1 b2 b3 =>
    obtain ⟨-, rfl⟩ := index_emits_of_no_fault h (by simp [ht])
    exact passes_index.loop rest
  | space b0 b1 b2 b3 =>
    obtain ⟨-, rfl⟩ := space_adds_of_no_fault h (by simp [ht])
    exact passes_space.loop rest
  | reservedEscape0 =>
    obtain ⟨-, ⟨-, rfl⟩ | ⟨-, rfl⟩⟩ := execReservedEscape0_eq_next.mp h <;> simp at ht
  | reservedEscape op =>
    obtain ⟨-, ⟨-, rfl⟩ | ⟨-, rfl⟩⟩ := execReservedEscape_eq_next.mp h <;> simp at ht
  | endOfStream =>
    obtain ⟨-, rfl⟩ := execEndOfStream_eq_next.mp h
    simp at ht

theorem loopOn_reservedRow {op : Byte} (hwf : WellFormed (reservedRow op)) (rest : List Byte) :
    s.loopOn (encode (reservedRow op) ++ rest) = .err .unknownOpcode op := by
  obtain ⟨h1, h2⟩ := wellFormed_reservedRow.mp hwf
  rw [encode_reservedRow]
  exact decodeLoop_unknown rfl h1 h2

/-- The loop finds the byte-codes cut off that the fetch finds cut off. -/
theorem loopOn_truncated (hf : fetch s = .error .truncated) :
    s.loopOn (s.bytesFrom s.pc s.remaining) = .err .unexpectedEndOfStream 0 := by
  obtain ⟨hlen, ⟨hlead, hshort⟩ | ⟨hlead, h2, h6, hop⟩⟩ := fetch_truncated_iff.mp hf
  · have hone : s.remaining = 1 := by unfold State.remaining at *; omega
    rw [hone]
    exact decodeLoop_truncated_lead hlead
  · obtain ⟨n, hn⟩ := Nat.exists_eq_add_of_le' h2
    rw [hn, bytesFrom_succ, bytesFrom_succ]
    exact decodeLoop_truncated_operands (by rw [hlead]; rfl) hop (by simp; omega)

/-- A meaning that leaves the decode running keeps the promise: the cursor passes the bytes it decodes. -/
theorem promised_of_exec {i : Instr} (hr : s.status = .run) (hf : fetch s = .ok i) (h : exec i s = .next t)
    (ht : t.status = .run) : t.promised = s.promised := by
  have hi : i ≠ .endOfStream := by
    rintro rfl
    obtain ⟨-, rfl⟩ := execEndOfStream_eq_next.mp h
    simp at ht
  have hd : decoderStep s = .next t := (decoderStep_of_fetch hr hf).trans h
  obtain ⟨hpc, -⟩ := exec_passes_bytes h ht
  obtain ⟨hlen, hseed, hbyte⟩ := decoderStep_buffer hd
  have hrem : t.remaining = s.remaining - byteLength i := by unfold State.remaining; omega
  have hrest : t.bytesFrom t.pc t.remaining = s.bytesFrom (s.pc + byteLength i) (s.remaining - byteLength i) := by
    rw [hpc, hrem]
    exact bytesFrom_congr fun x _ _ => hbyte x
  rw [promised_of_run ht, promised_of_run hr, hrest, bytes_left_of_fetch hf hi,
    loopOn_encode_append (fetch_sound hf).1 h ht]

/-- END's step keeps the promise: at the sentinel no byte is left, and the loop returns the queues. -/
theorem promised_finish (hs : AtSentinel s) : s.finish.promised = s.promised := by
  have hrem : s.remaining = 0 := by have := hs.2; unfold State.remaining; omega
  rw [promised_of_run hs.1, hrem, promised_outside_run (by simp)]
  exact congrArg some decodeLoop_nil.symm

/-- Every step of a running decode keeps the promise. -/
theorem promised_of_decoderStep (hr : s.status = .run) (hd : decoderStep s = .next t) : t.promised = s.promised := by
  by_cases herr : t.status = .err
  · rw [promised_outside_run (by simp [herr]), promised_of_run hr]
    obtain ⟨op, hf, rfl⟩ | ⟨hf, rfl⟩ := (decoderStep_err_iff hr).mp ⟨hd, herr⟩
    · have hi : reservedRow op ≠ .endOfStream := by unfold reservedRow; split <;> simp
      rw [bytes_left_of_fetch hf hi, loopOn_reservedRow (fetch_sound hf).1]
      rfl
    · rw [loopOn_truncated hf]
      rfl
  · obtain ⟨hne, -⟩ | ⟨-, i, hf, he⟩ | ⟨-, -, rfl⟩ := decoderStep_cases hd
    · exact absurd hr hne
    · by_cases ht : t.status = .run
      · exact promised_of_exec hr hf he ht
      · cases exec_decoderMove he with
        | finish hs => exact promised_finish hs
        | raise info _ => exact absurd rfl herr
        | emitFlux n k => exact absurd hr ht
        | emitIndex v => exact absurd hr ht
        | addSpace v => exact absurd hr ht
    · exact absurd rfl herr

end

/-! ### The whole decode -/

/-- At the default parameters the decoder's step is taken at or before the sentinel. -/
theorem decoderStep_next_of_unbounded {s : State} (hp : s.params = Params.unbounded) (hr : s.status = .run)
    (hpc : s.pc < s.len) : ∃ t, decoderStep s = .next t := by
  cases hd : decoderStep s with
  | next t => exact ⟨t, rfl⟩
  | fault f => exact absurd hd (decoderStep_ne_fault hr hpc)
  | refused r => exact absurd hd (decoderStep_ne_refused_of_unbounded hp r)

/-- A decoder's step that does not end the decode leaves the cursor at or before the sentinel. -/
theorem pc_lt_len_of_decoderStep {s t : State} (hr : s.status = .run) (hd : decoderStep s = .next t)
    (ht : t.status = .run) : t.pc < t.len := by
  obtain ⟨hne, -⟩ | ⟨-, i, -, he⟩ | ⟨-, -, rfl⟩ := decoderStep_cases hd
  · exact absurd hr hne
  · exact (exec_passes_bytes he ht).2
  · simp at ht

/-- A call that has ended as it should with `r`: the result is `r`, and after a fault both queues are empty. -/
def EndsWith (r : Option DecodeResult) (t : State) : Prop :=
  t.result = r ∧ (t.status = .err → t.fluxq = [] ∧ t.indexq = [])

theorem endsWith_promised_of_decoderStep {s t : State} (hr : s.status = .run) (hd : decoderStep s = .next t)
    (ht : t.status ≠ .run) : EndsWith s.promised t := by
  refine ⟨by rw [← promised_outside_run ht, promised_of_decoderStep hr hd], fun herr => ?_⟩
  obtain ⟨k, info, -, rfl⟩ := eq_raise_of_decoderStep hr hd herr
  exact ⟨rfl, rfl⟩

/-- With at most `k` bytes left, the sentinel's included, `k` steps end the decode as promised. -/
theorem run_ends_as_promised (k : Nat) {s : State} (hp : s.params = Params.unbounded) (hin : s.inbox = [])
    (hr : s.status = .run) (hpc : s.pc < s.len) (hk : s.len - s.pc ≤ k) :
    ∃ t : State, Host.Core.run Sys2Proof.core k s = .next t ∧ EndsWith s.promised t := by
  induction k generalizing s with
  | zero => omega
  | succ k ih =>
    obtain ⟨u, hd⟩ := decoderStep_next_of_unbounded hp hr hpc
    obtain ⟨hlen, hinbox, hparams, -⟩ := (decoderStep_decoderMove hr hd).frame hr
    have hin' : u.inbox = [] := hinbox.trans hin
    rw [run_succ ((step_decoder hin).trans hd)]
    by_cases hrun : u.status = .run
    · have hcursor := pc_lt_of_decoderStep hr hd hrun
      rw [← promised_of_decoderStep hr hd]
      exact ih (hparams.trans hp) hin' hrun (pc_lt_len_of_decoderStep hr hd hrun) (by omega)
    · exact ⟨u, run_ended k hin' hrun, endsWith_promised_of_decoderStep hr hd hrun⟩

theorem bytesFrom_zero_succ (s : State) (n : Nat) : s.bytesFrom 0 (n + 1) = s.bytesFrom 0 n ++ [s.byteAt n] := by
  rw [bytesFrom_add, Nat.zero_add]
  rfl

/-- START's check of the buffer is R140's (60_exceptions R111). -/
theorem decodeFlux_of_malformed {s : State} (h : s.len = 0 ∨ s.byteAt (s.len - 1) ≠ 0) :
    decodeFlux (s.bytesFrom 0 s.len) = .err .malformedBuffer 0 := by
  cases hlen : s.len with
  | zero => rfl
  | succ n =>
    have hlast : s.byteAt n ≠ 0 := by simpa [hlen] using h
    rw [bytesFrom_zero_succ, decodeFlux_concat_of_ne_zero _ hlast]

theorem decodeFlux_of_sentinel {s : State} (hne : s.len ≠ 0) (hzero : s.byteAt (s.len - 1) = 0) :
    decodeFlux (s.bytesFrom 0 s.len) = State.reset.loopOn (s.bytesFrom 0 (s.len - 1)) := by
  have hlast : s.bytesFrom 0 s.len = s.bytesFrom 0 (s.len - 1) ++ [0] := by
    rw [← hzero, ← bytesFrom_zero_succ, Nat.sub_add_cancel (Nat.one_le_iff_ne_zero.mpr hne)]
  rw [hlast, decodeFlux_concat_sentinel]

/-- Settles O57: START checks what `decode_flux` checks and promises what its loop returns, and a promise is kept. -/
theorem stepMachineAgreesWithDecodeFlux : Obligations.StepMachineAgreesWithDecodeFlux := by
  intro s hin hr hp
  obtain ⟨hbad, hgood⟩ := startInitialisesAndChecksTheSentinel s [] hin hr (by simp [hp, Params.unbounded])
  by_cases hmalformed : s.len = 0 ∨ s.byteAt (s.len - 1) ≠ 0
  · refine ⟨_, (run_succ (hbad hmalformed)).trans (run_ended _ rfl (by simp)), ?_, fun _ => ⟨rfl, rfl⟩⟩
    rw [decodeFlux_of_malformed hmalformed]
    rfl
  · obtain ⟨hne, hzero⟩ := not_or.mp hmalformed
    rw [not_not] at hzero
    rw [run_succ (hgood hne hzero), decodeFlux_of_sentinel hne hzero]
    exact run_ends_as_promised s.len hp rfl rfl (Nat.pos_of_ne_zero hne) (Nat.sub_le _ _)

end Sys2Proof.Machine
end

section
/-! The host's moves (70_reset_and_hazards R130, R132, R136). -/
namespace Sys2Proof.Machine

/-- Settles O1: the reset move is served in any state. -/
theorem resetPutsTheSpecifiedState : Obligations.ResetPutsTheSpecifiedState :=
  ⟨by decide, fun _ _ hin => ⟨_, step_host hin, rfl, rfl, rfl, rfl, rfl, rfl, rfl, rfl, rfl⟩⟩

/-- Outside `RUN` the host's write of a byte puts it in the buffer. -/
theorem step_writeBuf {s : State} {a : Nat} {b : Byte} {rest : List HostAction} (hr : s.status ≠ .run)
    (hin : s.inbox = .writeBuf a b :: rest) :
    step s = .next { s with inbox := rest, buf := writeByte s.buf a b } :=
  (step_host hin).trans (if_neg hr)

theorem step_writeLen {s : State} {n : Nat} {rest : List HostAction} (hr : s.status ≠ .run)
    (hin : s.inbox = .writeLen n :: rest) : step s = .next { s with inbox := rest, len := n } :=
  (step_host hin).trans (if_neg hr)

/-- Settles O41: the written byte is what is read at its address, by `byteAt_write`; the other moves have one answer. -/
theorem hostMovesOutsideRun : Obligations.HostMovesOutsideRun := by
  intro s rest
  refine ⟨fun a b hr hin => ⟨_, _, rfl, step_writeBuf hr hin, fun x => byteAt_write s a x b⟩,
    fun n hr hin => step_writeLen hr hin, fun hr hin => (step_host hin).trans (if_neg hr), fun hin => step_host hin⟩

/-- The moves that write `bs` from `a` on take a step each and leave `bs` written there. -/
theorem run_writeMoves (k a : Nat) (bs : List Byte) {s : State} {rest : List HostAction} (hr : s.status ≠ .run)
    (hin : s.inbox = writeMoves a bs ++ rest) :
    Host.Core.run Sys2Proof.core (bs.length + k) s
      = Host.Core.run Sys2Proof.core k { s with inbox := rest, buf := writeBytes s.buf a bs } := by
  induction bs generalizing a s with
  | nil =>
    obtain rfl : s.inbox = rest := hin
    simp [writeBytes]
  | cons b bs ih =>
    rw [List.length_cons, Nat.add_right_comm, run_succ (step_writeBuf hr hin)]
    exact ih (a + 1) hr rfl

/-- Settles O43: after the bytes, the move that writes LEN. -/
theorem loadedBufferIsInPlace : Obligations.LoadedBufferIsInPlace := by
  intro s bs hr hin
  rw [run_writeMoves 1 0 bs hr hin]
  refine ⟨_, run_succ (step_writeLen hr rfl), rfl, ?_, rfl, rfl⟩
  exact bytesFrom_eq fun i hi => byteAt_writeBytes s 0 i bs hi

end Sys2Proof.Machine
end

section
/-! The parameters of 00_scope R5 through every step: the decoder's moves, START and the host's moves write none. -/
namespace Sys2Proof.Machine

theorem decoderStep_params {s t : State} (h : decoderStep s = .next t) : t.params = s.params := by
  by_cases hr : s.status = .run
  · obtain ⟨-, -, hparams, -⟩ := (decoderStep_decoderMove hr h).frame hr
    exact hparams
  · rw [decoderStep_waits hr, Host.Outcome.next.injEq] at h
    exact h ▸ rfl

theorem start_params {s t : State} (h : start s = .next t) : t.params = s.params := by
  obtain ⟨-, ⟨-, rfl⟩ | ⟨-, -, rfl⟩⟩ := start_eq_next.mp h <;> rfl

theorem serveHost_params {a : HostAction} {s t : State} (h : serveHost a s = .next t) : t.params = s.params := by
  obtain ⟨-, x, b, -, rfl⟩ | ⟨-, n, -, rfl⟩ | ⟨-, -, hstart⟩ | ⟨-, rfl⟩ | ⟨-, rfl⟩ | ⟨-, hd⟩ := serveHost_cases h
  · rfl
  · rfl
  · exact start_params hstart
  · rfl
  · exact State.hostReset_params s
  · exact decoderStep_params hd

/-- Settles O48: whoever moves, the move writes no parameter; the host's reset keeps the machine's own. -/
theorem noStepChangesTheParameters : Obligations.NoStepChangesTheParameters := by
  intro s t hstep
  cases hin : s.inbox with
  | nil => exact decoderStep_params (step_decoder hin ▸ hstep)
  | cons a rest => exact serveHost_params (s := { s with inbox := rest }) (step_host hin ▸ hstep)

end Sys2Proof.Machine
end

section
/-! Where the model stops by name: the host's moves that `RUN` forbids, a length above LEN_MAX, and a meaning that no
rule enables (log entries 2, 4 and 5). -/
namespace Sys2Proof.Machine

/-- Settles O42: `serveHost` looks at STATUS before it serves any of the four. -/
theorem forbiddenHostMovesAreRefused : Obligations.ForbiddenHostMovesAreRefused := by
  intro s rest hr
  exact ⟨fun a b hin => (step_host hin).trans (if_pos hr), fun n hin => (step_host hin).trans (if_pos hr),
    fun hin => (step_host hin).trans (if_pos hr), fun hin => (step_host hin).trans (if_pos hr)⟩

/-- Settles O4: in `RUN` START is one of the forbidden moves; outside it, a length above LEN_MAX is its one refusal. -/
theorem startStopsWhereNotAllowed : Obligations.StartStopsWhereNotAllowed := by
  intro s rest hin
  refine ⟨fun hr => ?_, fun hr hlen => ?_⟩
  · obtain ⟨-, -, hstart, -⟩ := forbiddenHostMovesAreRefused s rest hr
    exact hstart hin
  · rw [step_host hin, serveHost_start (s := { s with inbox := rest }) hr]
    exact start_eq_refused.mpr ⟨hlen, rfl⟩

/-- At or past END the length test finds no byte-code, however long the one asked for. -/
theorem needBytes_noByteCode {n : Nat} {s : State} {e : Result} (hr : s.status = .run) (hpc : s.len ≤ s.pc + 1) :
    needBytes n s e = .fault .noByteCodeHere := by
  rw [needBytes, if_neg (not_not.mpr hr), if_pos hpc]

theorem exec_noByteCode {i : Instr} {s : State} (hr : s.status = .run) (hi : i ≠ .endOfStream)
    (hpc : s.len ≤ s.pc + 1) : exec i s = .fault .noByteCodeHere := by
  cases i with
  | endOfStream => exact absurd rfl hi
  | _ => exact needBytes_noByteCode hr hpc

theorem execEndOfStream_notAtSentinel {s : State} (hr : s.status = .run) (hpc : s.pc + 1 ≠ s.len) :
    execEndOfStream s = .fault .notAtSentinel := by
  rw [execEndOfStream, if_neg (not_not.mpr hr), if_pos hpc]

/-- Settles O13: every byte-code makes the length test before its effect, and END looks at the cursor. -/
theorem meaningsStopWhereNotEnabled : Obligations.MeaningsStopWhereNotEnabled := by
  refine fun i s => ⟨exec_outside_run, exec_noByteCode, ?_⟩
  rintro hr rfl hpc
  exact execEndOfStream_notAtSentinel hr hpc

end Sys2Proof.Machine
end

section
/-! A table word placed where the next step fetches (30_encoding R67, log entries 6 and 7). -/
namespace Sys2Proof

theorem tableBytes_length (nbits w : Nat) : (tableBytes nbits w).length = 6 := by
  simp only [tableBytes]
  split <;> rfl

theorem decodeTableWord_eq_some {nbits w : Nat} {i : Instr} :
    decodeTableWord nbits w = some i ↔ decode 6 (tableBytes nbits w) = .ok i := by
  unfold decodeTableWord
  cases decode 6 (tableBytes nbits w) <;> simp

end Sys2Proof

namespace Sys2Proof.Machine

/-- The sentinel is placed six bytes after the cursor. -/
theorem remaining_withFetchWord (s : State) (nbits w : Nat) : (s.withFetchWord nbits w).remaining = 6 :=
  Nat.add_sub_cancel_left s.pc 6

theorem window_withFetchWord (s : State) (nbits w : Nat) : (s.withFetchWord nbits w).window = tableBytes nbits w := by
  have hlength := tableBytes_length nbits w
  have hplaced (i : Nat) (hi : i < (tableBytes nbits w).length) :
      (s.withFetchWord nbits w).byteAt (s.pc + i) = (tableBytes nbits w)[i] :=
    (byteAt_writeBytes s s.pc i (tableBytes nbits w ++ [Config.sentinel]) (by simp; omega)).trans
      (List.getElem_append_left hi)
  rw [State.window, remaining_withFetchWord, min_self, ← hlength]
  exact bytesFrom_eq hplaced

/-- Settles O15: the window is the word's six bytes and six bytes of the prefix are left, as `decodeTableWord` has it. -/
theorem placedWordRunsNext : Obligations.PlacedWordRunsNext := by
  intro s nbits w i hword
  have hdecode : decode (s.withFetchWord nbits w).remaining (s.withFetchWord nbits w).window = .ok i := by
    rw [remaining_withFetchWord, window_withFetchWord]
    exact decodeTableWord_eq_some.mp hword
  have hpc : (s.withFetchWord nbits w).pc < (s.withFetchWord nbits w).len := Nat.lt_add_of_pos_right (by decide)
  exact (stepRunsTheDecodedByteCode _ i rfl hpc hdecode).1 rfl

end Sys2Proof.Machine
end
